-- ==== Sys2Proof/Word.lean ====
section
/-! DEFINITION. The two word types of the block and the one rounding division its formulas use. -/

namespace Sys2Proof

/-- A byte: 8 bits in every address space (R10, R34). -/
abbrev Byte := BitVec 8

/-- A register, command or table-window word: 32 bits (R16 to R25, R50). -/
abbrev Word := BitVec 32

/-- `ceil_div(a, b) = (a + b - 1) div b` (R9). -/
def ceilDiv (a b : Nat) : Nat := (a + b - 1) / b

end Sys2Proof
end

