-- ==== Sys2Proof/Config.lean ====
section
/-! DEFINITION. What one instance of the block fixes (R7): capacities, the shape of the rate table, the external
collaborators with their laws (R109 to R116), the base address, and the values the spec leaves open. -/

namespace Sys2Proof

/-- `fec_scheme` (R66): the identifier of a rate's code and puncturing pattern. The identifier carries its coding
rate, `data` message bits becoming `coded` coded bits (PRESUMED, log entry 3). The block passes it on unread. -/
structure FecScheme where
  data  : Nat
  coded : Nat
  deriving DecidableEq, Repr

/-- `m` bytes are what the scheme makes of `n` message bytes, exactly: the length relation of R113. -/
def FecScheme.Fits (scheme : FecScheme) (n m : Nat) : Prop :=
  0 < scheme.data ∧ scheme.data ≤ scheme.coded ∧ n * scheme.coded = m * scheme.data

/-- One row of `RateTable` (R27, R63): `{ndbps, ncbps, nbpsc, fec_scheme}`. -/
structure RateRow where
  ndbps  : Nat
  ncbps  : Nat
  nbpsc  : Nat
  scheme : FecScheme
  deriving DecidableEq, Repr

/-- `RateTable[0..7]` (R27, R64): one row for each supported rate id. -/
abbrev RateTable := Vector RateRow 8

/-- What `FecDec` answers (R114): `Ok(z)` or `Uncorrectable`. -/
inductive FecResult where
  | ok (bytes : List Byte)
  | uncorrectable
  deriving DecidableEq, Repr

/-- The external collaborators of the packet pipeline (R109): pure functions the block calls and does not contain.
The proof fields are the only facts the spec gives about them: the keystream's length (R110), the codec's lengths
(R113, R114, R115(a)) and `FecDec(FecEnc(x)) = Ok(x)` (R115(b)). The defaults only show that the laws can be met
together; nothing in the model uses them. -/
structure Collaborators where
  /-- `ScrKeystream(seed, n)` (R110, D22). -/
  keystream : Nat → Nat → List Byte := fun _ n => List.replicate n 0
  /-- `FecEnc(scheme, dec_len, x)` (R113, D23). -/
  fecEnc : FecScheme → Nat → List Byte → List Byte :=
    fun scheme n x => (x ++ List.replicate (n * scheme.coded) 0).take (n * scheme.coded / scheme.data)
  /-- `FecDec(scheme, dec_len, y)` (R114, D23). -/
  fecDec : FecScheme → Nat → List Byte → FecResult :=
    fun _ n y => .ok ((y ++ List.replicate n 0).take n)
  keystream_length : ∀ seed n, (keystream seed n).length = n := by simp
  fecEnc_length : ∀ (scheme : FecScheme) n m x, scheme.Fits n m → x.length = n →
      (fecEnc scheme n x).length = m := by
    rintro scheme n m x ⟨hd, -, hm⟩ hx
    have hdiv : n * scheme.coded / scheme.data = m := by rw [hm]; exact Nat.mul_div_cancel _ hd
    have : m ≤ n * scheme.coded := by rw [hm]; exact Nat.le_mul_of_pos_right _ hd
    simp only [hdiv, List.length_take, List.length_append, List.length_replicate]
    omega
  fecDec_length : ∀ (scheme : FecScheme) n m y z, scheme.Fits n m → y.length = m →
      fecDec scheme n y = .ok z → z.length = n := by
    rintro scheme n m y z - - h
    cases h
    simp
  fecDec_fecEnc : ∀ (scheme : FecScheme) n m x, scheme.Fits n m → x.length = n →
      fecDec scheme n (fecEnc scheme n x) = .ok x := by
    rintro scheme n m x ⟨hd, hle, hm⟩ hx
    have hdiv : n ≤ n * scheme.coded / scheme.data :=
      (Nat.le_div_iff_mul_le hd).2 (Nat.mul_le_mul_left n hle)
    subst hx
    simp [List.take_append, List.take_take, Nat.min_eq_left hdiv, List.take_of_length_le hdiv]
  deriving Inhabited

/-- The parameters of the block that the spec leaves OPEN (R7, R29, D5, D22, D23), as one argument of every command. -/
structure Params where
  rates  : RateTable
  collab : Collaborators

namespace Config

/-- `NRATES` (R7, R64). -/
abbrev nRates : Nat := 8
/-- `SYM_CAP` (R7, R26): bytes in each of `SIB` and `SOB`. -/
abbrev symCap : Nat := 36
/-- `PB_CAP` (R7, R26). -/
abbrev pbCap : Nat := 4096
/-- `CB_CAP` (R7, R26). -/
abbrev cbCap : Nat := 8208
/-- `NCBPS_MAX` (R7, R22): entries of room in each cache slot. -/
abbrev ncbpsMax : Nat := 512
/-- `LMAX` (R7, R108): the largest payload length a command word can carry. -/
abbrev lengthMax : Nat := 4095

/-- OPEN (D31): which multiple of 0x10000 the platform puts the block at. Nothing is known of it (log entry 10). -/
opaque baseBlock : Nat
/-- `BASE` (R45, D31). -/
def base : Nat := 0x10000 * baseBlock

/-- OPEN (D22, D23): this instance's scrambler keystream and FEC codec. Only their laws are known (log entry
9). -/
opaque collaborators : Collaborators

/-- FREE VALUE (U5, R30): the byte a buffer offset holds after the reset number `epoch`, until it is written
(log entry 4). -/
opaque powerOnByte (epoch offset : Nat) : Byte

/-- FREE VALUE (U4, R25, D32): the word the `n`-th draw gives, for a host read of a table entry without a defined value
(log entry 6). -/
opaque freeWord (n : Nat) : Word

end Config

end Sys2Proof
end

