-- ==== Sys2Proof/Syntax.lean ====
section
/-! DEFINITION. The seven commands (R3), one constructor per row of spec/opcode_table.json. Operands are the natural
numbers the word's fields give (R55); WellFormed says which fit their field. -/

namespace Sys2Proof

/-- The command set (R3). The remaining operands of the operations (payload, channel bits, symbol input and output,
table) are buffer spaces and cache slots, not part of the word (R55). -/
inductive Instr where
  /-- `gentbl r`: generate rate `r`'s interleaver table (R77). -/
  | gentbl (rate : Nat)
  /-- `ilv r`: interleave one symbol from `SIB` into `SOB` (R85). -/
  | ilv (rate : Nat)
  /-- `dilv r`: deinterleave one symbol from `SIB` into `SOB` (R86). -/
  | dilv (rate : Nat)
  /-- `clen r, len`: the encoded length (R95). -/
  | clen (rate length : Nat)
  /-- `penc r, seed, len`: encode `PB` into `CB` (R102). -/
  | penc (rate seed length : Nat)
  /-- `pdec r, seed, len`: decode `CB` into `PB` (R104). -/
  | pdec (rate seed length : Nat)
  /-- `brev b`: bit-reversal table lookup (R71). -/
  | brev (byte : Nat)
  deriving DecidableEq, Repr

/-- The mnemonic of the opcode map (R56). -/
def Instr.mnemonic : Instr → String
  | .gentbl _ => "GENTBL"
  | .ilv _ => "ILV"
  | .dilv _ => "DILV"
  | .clen _ _ => "CLEN"
  | .penc _ _ _ => "PENC"
  | .pdec _ _ _ => "PDEC"
  | .brev _ => "BREV"

end Sys2Proof
end

