-- ==== Sys2Proof/WellFormed.lean ====
section
/-! DEFINITION. The static checks: which operands fit their field (R61: "an assembler rejects a value that does not fit
its field"), and the constraints every instance of `RateTable` must meet (R8). -/

namespace Sys2Proof

/-- `r` is 0..15 (R61). -/
def rateFits (r : Nat) : Bool := r < 16
/-- `seed` is 0..127 (R61). -/
def seedFits (seed : Nat) : Bool := seed < 128
/-- `len` is 0..4095 (R61). -/
def lengthFits (len : Nat) : Bool := len < 4096
/-- `b` is 0..255 (R61). -/
def byteFits (b : Nat) : Bool := b < 256

/-- Every operand of the command fits its field (R55, R61). -/
def Instr.wf : Instr → Bool
  | .gentbl r => rateFits r
  | .ilv r => rateFits r
  | .dilv r => rateFits r
  | .clen r len => rateFits r && lengthFits len
  | .penc r seed len => rateFits r && seedFits seed && lengthFits len
  | .pdec r seed len => rateFits r && seedFits seed && lengthFits len
  | .brev b => byteFits b

/-- R8(a) and (b): the shape of `(ncbps, nbpsc)` that makes the interleaver table a bijection. -/
def interleavable (ncbps nbpsc : Nat) : Bool :=
  ncbps % 8 == 0 && ncbps % 16 == 0 && ncbps / 16 % max 1 (nbpsc / 2) == 0

/-- R8(c): the bounds on one row. -/
def RateRow.inBounds (row : RateRow) : Bool :=
  1 ≤ row.ndbps && 1 ≤ row.nbpsc && 8 ≤ row.ncbps && row.ncbps ≤ Config.ncbpsMax && row.ncbps / 8 ≤ Config.symCap

/-- The longest encoded packet of the row fits `CB`. DEDUCED from R43, which relies on it (log entry 2). -/
def RateRow.fitsChannelBuffer (row : RateRow) : Bool :=
  ceilDiv (16 + 8 * Config.lengthMax + 6) row.ndbps * (row.ncbps / 8) ≤ Config.cbCap

/-- The row's scheme has the row's expansion `ncbps/ndbps`. DEDUCED from R113's "for the scheme's associated rate"
(log entry 3). -/
def RateRow.schemeAgrees (row : RateRow) : Bool :=
  0 < row.scheme.data && row.scheme.data ≤ row.scheme.coded &&
    row.ncbps * row.scheme.data == row.ndbps * row.scheme.coded

/-- The constraints of R8 on one row, with the two the spec's other rules rely on. -/
def RateRow.wf (row : RateRow) : Bool :=
  interleavable row.ncbps row.nbpsc && row.inBounds && row.fitsChannelBuffer && row.schemeAgrees

/-- R8: the constraints every instance of `RateTable` must meet. -/
def RateTable.wf (t : RateTable) : Bool := t.toList.all RateRow.wf

end Sys2Proof
end

