-- ==== Sys2Proof/Decode.lean ====
section
/-! DEFINITION. Command words to commands (R50 to R60), total on every 32-bit word, and the encoder (R61) after it. -/

namespace Sys2Proof

/-- `w[hi:lo] = (w div 2^lo) mod 2^(hi-lo+1)` (R9). -/
def field (w : Word) (hi lo : Nat) : Nat := w.toNat / 2 ^ lo % 2 ^ (hi - lo + 1)

/-- Why a word is `Illegal` (R57). -/
inductive DecodeError where
  /-- `op` is 0 or 8..15 (R58). -/
  | reservedOpcode (op : Nat)
  /-- A legal `op` with a reserved bit set (R59). -/
  | reservedField (op : Nat)
  deriving DecidableEq, Repr

/-- A command of a legal opcode is accepted only with its reserved field zero (R59). -/
def acceptIfZero (op reserved : Nat) (i : Instr) : Except DecodeError Instr :=
  if reserved = 0 then .ok i else .error (.reservedField op)

/-- `decode(w)` (R57). -/
def decode (w : Word) : Except DecodeError Instr :=
  let rate := field w 27 24
  let seed := field w 23 17
  let length := field w 11 0
  match field w 31 28 with
  | 1 => acceptIfZero 1 (field w 23 0) (.gentbl rate)
  | 2 => acceptIfZero 2 (field w 23 0) (.ilv rate)
  | 3 => acceptIfZero 3 (field w 23 0) (.dilv rate)
  | 4 => acceptIfZero 4 (field w 23 12) (.clen rate length)
  | 5 => acceptIfZero 5 (field w 16 12) (.penc rate seed length)
  | 6 => acceptIfZero 6 (field w 16 12) (.pdec rate seed length)
  | 7 => acceptIfZero 7 (field w 27 8) (.brev (field w 7 0))
  | op => .error (.reservedOpcode op)

/-- The word a command assembles to (R61), for operands that fit their fields. -/
def encode : Instr → Word
  | .gentbl r => BitVec.ofNat 32 (0x10000000 + r * 2 ^ 24)
  | .ilv r => BitVec.ofNat 32 (0x20000000 + r * 2 ^ 24)
  | .dilv r => BitVec.ofNat 32 (0x30000000 + r * 2 ^ 24)
  | .clen r len => BitVec.ofNat 32 (0x40000000 + r * 2 ^ 24 + len)
  | .penc r seed len => BitVec.ofNat 32 (0x50000000 + r * 2 ^ 24 + seed * 2 ^ 17 + len)
  | .pdec r seed len => BitVec.ofNat 32 (0x60000000 + r * 2 ^ 24 + seed * 2 ^ 17 + len)
  | .brev b => BitVec.ofNat 32 (0x70000000 + b)

/-- One row of the opcode map (R56). -/
structure OpcodeRow where
  mnemonic : String
  pattern  : Word
  mask     : Word
  deriving DecidableEq, Repr

/-- The opcode map (R56). -/
def opcodeMap : List OpcodeRow :=
  [⟨"GENTBL", 0x10000000, 0xF0FFFFFF⟩,
   ⟨"ILV", 0x20000000, 0xF0FFFFFF⟩,
   ⟨"DILV", 0x30000000, 0xF0FFFFFF⟩,
   ⟨"CLEN", 0x40000000, 0xF0FFF000⟩,
   ⟨"PENC", 0x50000000, 0xF001F000⟩,
   ⟨"PDEC", 0x60000000, 0xF001F000⟩,
   ⟨"BREV", 0x70000000, 0xFFFFFF00⟩]

/-- "a word `w` is this command iff `(w & mask) = match`" (R56). -/
def OpcodeRow.accepts (row : OpcodeRow) (w : Word) : Prop := w &&& row.mask = row.pattern

/-- The host's question: what the decoder reads from `nbits` bits of `w`. Every command is one 32-bit word (R50). -/
def decodeTableWord (nbits w : Nat) : Option Instr :=
  if nbits ≤ 32 then (decode (BitVec.ofNat 32 (w % 2 ^ nbits))).toOption else none

end Sys2Proof
end

