-- ==== Sys2Proof/Machine/State.lean ====
section
/-! DEFINITION. The state of the block as plain data (R13), the host's accesses that drive it (R47), and the reasons a
step can stop. -/

namespace Sys2Proof.Machine

/-- No step of the block stops with a fault: what the spec calls a fault ends one command, is recorded in the outcome
registers and leaves the block usable (R119, R127, R130), so it is a next state. -/
inductive Fault where
  deriving DecidableEq, Repr

/-- Why a step has no meaning. The host accesses here are those of R40, R46 and U6, which the spec refuses: "it is not
an operation of this hardware and a model gives it no meaning" (log entry 8). All are safe: nothing is claimed after
one. -/
inductive Refusal where
  /-- Raised by `exec` for a command without a meaning yet. Safe. No arm raises it. -/
  | notModelled (mnemonic : String)
  /-- Raised by a host access of the wrong width for its region (R40). Safe. -/
  | accessWidth (bytes : Nat)
  /-- Raised by a 32-bit host access at an offset that is no multiple of 4 (R40). Safe. -/
  | misaligned (offset : Nat)
  /-- Raised by a host access at an address no region of the map holds (R45, R46). Safe. -/
  | unmapped (address : Nat)
  /-- Raised by a host access through an abstract port with an index at or beyond the capacity (R40). Safe. -/
  | beyondCapacity (index : Nat)
  /-- Raised by a host write to a table-window word, which is read-only (R25, R45, U6; log entry 7). Safe. -/
  | tableWindowWrite (rate entry : Nat)
  deriving DecidableEq, Repr

/-- The six faults of a command, with what each records (R120). -/
inductive CommandFault where
  /-- R121. -/
  | invalidRate (rate : Nat)
  /-- R122: carries the expected size. -/
  | bufferSizeMismatch (expected : Nat)
  /-- R123. -/
  | fecUncorrectable
  /-- R124: carries the command word. -/
  | illegalCommand (w : Word)
  /-- R125. -/
  | tableNotValid (rate : Nat)
  /-- R126: carries `nsym`. -/
  | inexactLength (nsym : Nat)
  deriving DecidableEq, Repr

/-- The registers by name (R31). -/
inductive Reg where
  | cmd | status | errCode | errInfo | result | pbLen | cbLen | sibLen | sobLen | tvalid
  deriving DecidableEq, Repr

/-- The four byte-addressed buffer spaces (R26). -/
inductive Space where
  | pb | cb | sib | sob
  deriving DecidableEq, Repr

/-- What one host access reaches: the abstract ports of R45. -/
inductive Port where
  | reg (r : Reg)
  | buf (space : Space) (i : Nat)
  | tbl (r k : Nat)
  deriving DecidableEq, Repr

/-- What the outside world can do to the block (R33, R45, R134). A write's value is the word on the bus; a byte write
takes its low 8 bits. Addresses are absolute, `BASE` included (log entries 5 and 12). -/
inductive HostEvent where
  | read (p : Port)
  | write (p : Port) (v : Word)
  | memRead (addr n : Nat)
  | memWrite (addr n : Nat) (v : Word)
  | reset
  deriving DecidableEq, Repr

/-- An Interleaver Permutation Entry (R22): `{src_byte, dst_byte, src_mask, dst_mask}`, 8 bits stored of each. -/
structure Entry where
  srcByte : Byte
  dstByte : Byte
  srcMask : Byte
  dstMask : Byte
  deriving DecidableEq, Repr

/-- One slot of the table cache (R22): the valid bit and `TBL[r][k]` for the `k` written since reset. An entry past the
list's end has no defined value. -/
structure Slot where
  valid   : Bool
  entries : List Entry
  deriving DecidableEq, Repr

/-- The bytes of the four buffer spaces written since reset, by offset from `BASE` (R26, R45), in rising order of
offset. An offset that is not listed has no value of its own: it holds the power-on byte (R30, U5, log entry 4). -/
structure Memory where
  cells : List Host.Cell
  deriving DecidableEq, Repr

/-- The complete architectural state (R13), and below the comment the model's own fields. -/
structure State where
  /-- `STATUS` (R17): bit 0 `DONE`, bit 1 `ERR`. -/
  status  : Word
  /-- `ERRCODE` (R18). -/
  errCode : Word
  /-- `ERRINFO` (R19). -/
  errInfo : Word
  /-- `RESULT` (R20). -/
  result  : Word
  /-- `PB_LEN` (R21). -/
  pbLen   : Word
  /-- `CB_LEN` (R21). -/
  cbLen   : Word
  /-- `SIB_LEN` (R21). -/
  sibLen  : Word
  /-- `SOB_LEN` (R21). -/
  sobLen  : Word
  /-- `TVALID[0..7]` and `TBL[0..7]` (R22). -/
  cache   : Vector Slot 8
  /-- `PB`, `CB`, `SIB`, `SOB` (R26). -/
  mem     : Memory
  -- The model's own fields, not the spec's (log entries 4 to 6): the host's side of the ports, and the counters of the
  -- free values.
  /-- The host's accesses still to come, the next one first (R47). -/
  bus      : List HostEvent
  /-- What the host's last read returned, zero-extended. -/
  hostData : Word
  /-- How many resets have happened: names the arbitrary contents of the buffers (U5). -/
  epoch    : Nat
  /-- How many unspecified words have been drawn (U4). -/
  draws    : Nat
  deriving DecidableEq, Repr

/-- A slot nothing has generated since reset (R30). -/
def emptySlot : Slot := ⟨false, []⟩

/-- The block right after reset (R30, R135), with no host access pending. -/
def State.reset : State where
  status  := 0
  errCode := 0
  errInfo := 0
  result  := 0
  pbLen   := 0
  cbLen   := 0
  sibLen  := 0
  sobLen  := 0
  cache   := Vector.replicate 8 emptySlot
  mem     := ⟨[]⟩
  bus      := []
  hostData := 0
  epoch    := 0
  draws    := 0

end Sys2Proof.Machine
end

