-- ==== Sys2Proof/Machine/Flags.lean ====
section
/-! DEFINITION. The block's only flags, `DONE` and `ERR` of `STATUS` (R17), and the fault record (R120). -/

namespace Sys2Proof.Machine

/-- `STATUS` after a command that completed: `DONE = 1`, `ERR = 0` (R17, R133). -/
def statusDone : Word := 0x00000001

/-- `STATUS` after a command that faulted: `DONE = 0`, `ERR = 1` (R17, R127). -/
def statusErr : Word := 0x00000002

/-- The flag `DONE` (R17). -/
def State.done (s : State) : Bool := s.status.getLsbD 0

/-- The flag `ERR` (R17). -/
def State.err (s : State) : Bool := s.status.getLsbD 1

/-- The value of `ERRCODE` a fault records (R120). -/
def CommandFault.code : CommandFault → Word
  | .invalidRate _ => 1
  | .bufferSizeMismatch _ => 2
  | .fecUncorrectable => 3
  | .illegalCommand _ => 4
  | .tableNotValid _ => 5
  | .inexactLength _ => 6

/-- The value of `ERRINFO` a fault records (R120 to R126). -/
def CommandFault.info : CommandFault → Word
  | .invalidRate rate => BitVec.ofNat 32 rate
  | .bufferSizeMismatch expected => BitVec.ofNat 32 expected
  | .fecUncorrectable => 0
  | .illegalCommand w => w
  | .tableNotValid rate => BitVec.ofNat 32 rate
  | .inexactLength nsym => BitVec.ofNat 32 nsym

end Sys2Proof.Machine
end

