-- ==== Sys2Proof/Machine/Ops.lean ====
section
/-! DEFINITION. The shared operations over buffers, length registers, the table cache and the outcome registers:
every access of a command or of the host goes through them, and fault entry (R127) stands here once. -/

namespace Sys2Proof.Machine

/-! ## Buffer spaces -/

/-- Offset of byte 0 of a space from `BASE` (R45). -/
def Space.base : Space → Nat
  | .pb => 0x1000
  | .cb => 0x4000
  | .sib => 0x0100
  | .sob => 0x0140

/-- Capacity of a space in bytes (R26). -/
def Space.cap : Space → Nat
  | .pb => Config.pbCap
  | .cb => Config.cbCap
  | .sib => Config.symCap
  | .sob => Config.symCap

/-- The offset belongs to the space (R45). -/
def Space.holds (sp : Space) (off : Nat) : Bool := sp.base ≤ off && off < sp.base + sp.cap

/-- The offset belongs to one of the four buffer spaces (R45). -/
def bufferOffset (off : Nat) : Bool :=
  Space.pb.holds off || Space.cb.holds off || Space.sib.holds off || Space.sob.holds off

/-- The byte listed at an offset. -/
def findCell (off : Nat) : List Host.Cell → Option Byte
  | [] => none
  | (a, v) :: rest => if a = off then some v else findCell off rest

/-- Lists a byte at an offset, keeping the offsets rising. -/
def putCell (off : Nat) (v : Byte) : List Host.Cell → List Host.Cell
  | [] => [(off, v)]
  | (a, w) :: rest =>
    if off < a then (off, v) :: (a, w) :: rest
    else if off = a then (off, v) :: rest
    else (a, w) :: putCell off v rest

/-- The offsets are strictly rising. -/
def risingCells : List Host.Cell → Bool
  | [] => true
  | [_] => true
  | (a, _) :: (b, v) :: rest => a < b && risingCells ((b, v) :: rest)

/-- The canonical form of the buffer memory: offsets strictly rising, each inside a buffer space. An unlisted offset
reads as no value of its own, so no listed byte can repeat it. -/
def Memory.wf (m : Memory) : Bool := risingCells m.cells && m.cells.all fun c => bufferOffset c.1

/-- The byte written at an offset since reset, if any. -/
def Memory.find (m : Memory) (off : Nat) : Option Byte := findCell off m.cells

/-- `S[i]` (R11). A byte nothing has written since reset is the power-on byte of its offset (U5). Past the capacity
there is no byte: no command or accepted host access asks for one (R40, R43), and the model answers a free value (log
entry 13). -/
def State.byte (s : State) (sp : Space) (i : Nat) : Byte :=
  ((if i < sp.cap then s.mem.find (sp.base + i) else none)).getD (Config.powerOnByte s.epoch (sp.base + i))

/-- `S[i] <- v` (R11). Past the capacity there is nothing to write (log entry 13). -/
def State.setByte (s : State) (sp : Space) (i : Nat) (v : Byte) : State :=
  if i < sp.cap then { s with mem := ⟨putCell (sp.base + i) v s.mem.cells⟩ } else s

/-- `S[0 : n)` (R10). -/
def State.bytes (s : State) (sp : Space) (n : Nat) : List Byte := (List.range n).map (s.byte sp)

/-- Writes consecutive bytes of a space from index `i` on. -/
def State.setBytesFrom (sp : Space) : Nat → List Byte → State → State
  | _, [], s => s
  | i, v :: rest, s => State.setBytesFrom sp (i + 1) rest (s.setByte sp i v)

/-- `S[0 : len(bytes)) <- bytes` (R10). -/
def State.setBytes (s : State) (sp : Space) (bytes : List Byte) : State := State.setBytesFrom sp 0 bytes s

/-! ## Declared-length registers -/

/-- The declared-length register of a space (R21). -/
def State.len (s : State) : Space → Word
  | .pb => s.pbLen
  | .cb => s.cbLen
  | .sib => s.sibLen
  | .sob => s.sobLen

/-- Writes the declared-length register of a space (R21). -/
def State.setLen (s : State) (sp : Space) (v : Word) : State :=
  match sp with
  | .pb => { s with pbLen := v }
  | .cb => { s with cbLen := v }
  | .sib => { s with sibLen := v }
  | .sob => { s with sobLen := v }

/-! ## Table cache -/

/-- Slot `r` of the cache (R22). There are eight. -/
def State.slot (s : State) (r : Nat) : Slot := s.cache[r]?.getD emptySlot

/-- Writes slot `r` of the cache (R22). -/
def State.setSlot (s : State) (r : Nat) (slot : Slot) : State := { s with cache := s.cache.setIfInBounds r slot }

/-- `TBL[r][0 : n)` (R22). -/
def State.table (s : State) (r n : Nat) : List Entry := (s.slot r).entries.take n

/-- The register view of the valid bits: bit `r` is `TVALID[r]`, bits 31:8 read as 0 (R23). -/
def State.tvalidWord (s : State) : Word :=
  BitVec.ofNat 32 (((List.range 8).map fun r => if (s.slot r).valid then 2 ^ r else 0).sum)

/-! ## Outcome registers -/

/-- `RESULT <- n`, the natural number zero-extended to 32 bits (R20, R146). -/
def State.setResult (s : State) (n : Nat) : State := { s with result := BitVec.ofNat 32 n }

/-- `complete` (R133): the exit of a command that did not fault. -/
def complete (s : State) : State := { s with status := statusDone, errCode := 0, errInfo := 0 }

/-- `raise F(info)` (R127): fault entry, with the output length register the faulting command clears, if it has one:
`some .cb` for a word decoded as `PENC`, `some .pb` for one decoded as `PDEC`. -/
def raiseFault (f : CommandFault) (clears : Option Space) (s : State) : State :=
  let s' := { s with status := statusErr, errCode := f.code, errInfo := f.info, result := 0 }
  match clears with
  | none => s'
  | some sp => s'.setLen sp 0

/-- `Illegal` raises `IllegalCommand(w)`; no length register is cleared (R57, R124). -/
def raiseIllegal (w : Word) (s : State) : State := raiseFault (.illegalCommand w) none s

end Sys2Proof.Machine
end

