-- ==== Sys2Proof/Machine/RateTable.lean ====
section
/-! DEFINITION. The default rate table (R65) and the parameters this block runs with. -/

namespace Sys2Proof.Machine

/-- `FEC_R1_2` (R66). -/
def fecR1_2 : FecScheme := ⟨1, 2⟩
/-- `FEC_R2_3` (R66). -/
def fecR2_3 : FecScheme := ⟨2, 3⟩
/-- `FEC_R3_4` (R66). -/
def fecR3_4 : FecScheme := ⟨3, 4⟩

/-- The default `RateTable` (R65), in the order of R64: 6, 9, 12, 18, 24, 36, 48, 54 Mb/s. DESIGN CHOICE (log
entry 1): the spec leaves the parameter OPEN (D5) and gives this table as its default instance, from general knowledge
(G1). -/
def defaultRates : RateTable :=
  #v[{ nbpsc := 1, ncbps := 48, ndbps := 24, scheme := fecR1_2 },
     { nbpsc := 1, ncbps := 48, ndbps := 36, scheme := fecR3_4 },
     { nbpsc := 2, ncbps := 96, ndbps := 48, scheme := fecR1_2 },
     { nbpsc := 2, ncbps := 96, ndbps := 72, scheme := fecR3_4 },
     { nbpsc := 4, ncbps := 192, ndbps := 96, scheme := fecR1_2 },
     { nbpsc := 4, ncbps := 192, ndbps := 144, scheme := fecR3_4 },
     { nbpsc := 6, ncbps := 288, ndbps := 192, scheme := fecR2_3 },
     { nbpsc := 6, ncbps := 288, ndbps := 216, scheme := fecR3_4 }]

/-- The parameters of this block (R7): the default rate table, and collaborators of which only the laws are known. -/
def block : Params := ⟨defaultRates, Config.collaborators⟩

/-- `RP(r)` (R63): the row of a supported rate id; none is `InvalidRate`. -/
def rateRow (P : Params) (r : Nat) : Option RateRow := P.rates[r]?

end Sys2Proof.Machine
end

