-- ==== Sys2Proof/Machine/Operands.lean ====
section
/-! DEFINITION. The checks of a command's operands, each with the fault it raises, and the length formulas (R93, R94).
A command is a chain of checks ending in its effect: the first check that fails ends it (R105, R128). -/

namespace Sys2Proof.Machine

/-- The rate operand (R63, R121): the command goes on with the rate's row, or raises `InvalidRate(rate)`. -/
def withRate (P : Params) (rate : Nat) (clears : Option Space) (s : State) (k : RateRow → State) : State :=
  match rateRow P rate with
  | some row => k row
  | none => raiseFault (.invalidRate rate) clears s

/-- The table operand of `ILV` and `DILV` (R55, R125): slot `rate` must have been generated since reset. -/
def requireTable (rate : Nat) (s : State) (k : State) : State :=
  if (s.slot rate).valid then k else raiseFault (.tableNotValid rate) none s

/-- "require `X_LEN = n`" (R39, R122): exact equality of the 32-bit register with the natural number. -/
def requireLen (sp : Space) (n : Nat) (clears : Option Space) (s : State) (k : State) : State :=
  if (s.len sp).toNat = n then k else raiseFault (.bufferSizeMismatch n) clears s

/-- What `Lengths` returns (R93). -/
structure PacketLengths where
  nsym      : Nat
  ndata     : Nat
  decMsgLen : Nat
  encMsgLen : Nat
  deriving DecidableEq, Repr

/-- `Lengths(ndbps, ncbps, length)` (R93). -/
def packetLengths (ndbps ncbps length : Nat) : PacketLengths :=
  let nbits := 16 + 8 * length + 6
  let nsym := ceilDiv nbits ndbps
  let ndata := nsym * ndbps
  let decMsgLen := ndata / 8
  ⟨nsym, ndata, decMsgLen, decMsgLen * ncbps / ndbps⟩

/-- Both divisions of `Lengths` are exact (R94). -/
def PacketLengths.exact (l : PacketLengths) (ndbps ncbps : Nat) : Bool :=
  l.ndata % 8 == 0 && l.decMsgLen * ncbps % ndbps == 0

/-- `CheckedLengths` (R94, R126): the command goes on with exact lengths, or raises `InexactLength(nsym)`. -/
def withLengths (row : RateRow) (length : Nat) (clears : Option Space) (s : State) (k : PacketLengths → State) : State :=
  let l := packetLengths row.ndbps row.ncbps length
  if l.exact row.ndbps row.ncbps then k l else raiseFault (.inexactLength l.nsym) clears s

end Sys2Proof.Machine
end

