-- ==== Sys2Proof/Machine/Interleaver.lean ====
section
/-! DEFINITION. The interleaver table (R73 to R78) with `GENTBL`, and the two transforms of one symbol (R82 to R84) with
`ILV` and `DILV`. -/

namespace Sys2Proof.Machine

/-! ## The table -/

/-- `1 << (7 - (p mod 8))`: the mask of bit position `p` in its byte, MSB first (R10, R35). -/
def bitMask (p : Nat) : Byte := BitVec.ofNat 8 (2 ^ (7 - p % 8))

/-- `bit(B, p)` (R10). -/
def bitAt (buf : List Byte) (p : Nat) : Bool := (buf.getD (p / 8) 0 &&& bitMask p) != 0

/-- The entry that pairs source bit position `k` with destination bit position `j`, in byte and mask form (R76). -/
def entryOf (k j : Nat) : Entry := ⟨BitVec.ofNat 8 (k / 8), BitVec.ofNat 8 (j / 8), bitMask k, bitMask j⟩

/-- `s = max(1, nbpsc div 2)` (R68, R74). -/
def rotationBlock (nbpsc : Nat) : Nat := max 1 (nbpsc / 2)

/-- The first permutation: `i` from `k` (R75, R80). -/
def firstPos (ncbps k : Nat) : Nat := ncbps / 16 * (k % 16) + k / 16

/-- The second permutation after the first: `j` from `k` (R75). -/
def destPos (ncbps nbpsc k : Nat) : Nat :=
  let s := rotationBlock nbpsc
  let i := firstPos ncbps k
  s * (i / s) + (i + ncbps - 16 * i / ncbps) % s

/-- `GenEntry(ncbps, nbpsc, k)` (R75). -/
def genEntry (ncbps nbpsc k : Nat) : Entry := entryOf k (destPos ncbps nbpsc k)

/-- `GenTable(ncbps, nbpsc)` (R76): `ncbps` entries, the upper bound exclusive. -/
def genTable (ncbps nbpsc : Nat) : List Entry := (List.range ncbps).map (genEntry ncbps nbpsc)

/-- Writes `TBL[rate][0 : ncbps)` and sets `TVALID[rate]`; entries at `ncbps` and above are not written (R77). -/
def State.fillSlot (s : State) (rate : Nat) (row : RateRow) : State :=
  s.setSlot rate ⟨true, genTable row.ncbps row.nbpsc ++ (s.slot rate).entries.drop row.ncbps⟩

/-- `EnsureTable(rate)` (R78). -/
def State.ensureTable (s : State) (rate : Nat) (row : RateRow) : State :=
  if (s.slot rate).valid then s else s.fillSlot rate row

/-- The word of an entry at the table window (R25). -/
def Entry.word (e : Entry) : Word := e.srcByte ++ e.dstByte ++ e.srcMask ++ e.dstMask

/-! ## The transforms -/

/-- `out[i] <- out[i] | m` if the input bit is set (R83, R84, R41). -/
def orIf (set : Bool) (i : Nat) (m : Byte) (out : List Byte) : List Byte :=
  if set then out.set i (out.getD i 0 ||| m) else out

/-- `Interleave(T, in, out)` (R83). -/
def interleave (T : List Entry) (inp out : List Byte) : List Byte :=
  T.foldl (fun out e => orIf ((inp.getD e.srcByte.toNat 0 &&& e.srcMask) != 0) e.dstByte.toNat e.dstMask out) out

/-- `Deinterleave(T, in, out)` (R84). -/
def deinterleave (T : List Entry) (inp out : List Byte) : List Byte :=
  T.foldl (fun out e => orIf ((inp.getD e.dstByte.toNat 0 &&& e.dstMask) != 0) e.srcByte.toNat e.srcMask out) out

/-! ## The commands -/

/-- `GENTBL rate` (R77). -/
def gentbl (P : Params) (rate : Nat) (s : State) : State :=
  withRate P rate none s fun row =>
  complete ((s.fillSlot rate row).setResult row.ncbps)

/-- One symbol from `SIB` into `SOB` by a transform (R85, R86). The block does not zero `SOB`. -/
def symbolCommand (P : Params) (transform : List Entry → List Byte → List Byte → List Byte)
    (rate : Nat) (s : State) : State :=
  withRate P rate none s fun row =>
  requireTable rate s <|
  requireLen .sib (row.ncbps / 8) none s <|
  requireLen .sob (row.ncbps / 8) none s <|
  let nb := row.ncbps / 8
  let out := transform (s.table rate row.ncbps) (s.bytes .sib nb) (s.bytes .sob nb)
  complete ((s.setBytes .sob out).setResult nb)

/-- `ILV rate` (R85). -/
def ilv (P : Params) (rate : Nat) (s : State) : State := symbolCommand P interleave rate s

/-- `DILV rate` (R86). -/
def dilv (P : Params) (rate : Nat) (s : State) : State := symbolCommand P deinterleave rate s

/-- `GENTBL` (R77). -/
def execGentbl (rate : Nat) (s : State) : Host.Outcome State Fault Refusal := .next (gentbl block rate s)

/-- `ILV` (R85). -/
def execIlv (rate : Nat) (s : State) : Host.Outcome State Fault Refusal := .next (ilv block rate s)

/-- `DILV` (R86). -/
def execDilv (rate : Nat) (s : State) : Host.Outcome State Fault Refusal := .next (dilv block rate s)

end Sys2Proof.Machine
end

