-- ==== Sys2Proof/Machine/Packet.lean ====
section
/-! DEFINITION. The packet pipeline (R92 to R108) with `CLEN`, `PENC` and `PDEC`. The scratch buffers are local values
(R28). -/

namespace Sys2Proof.Machine

/-! ## The steps of the pipeline -/

/-- Encode step 1 (R97): SERVICE, the payload bytes each bit-reversed, zeros to `decMsgLen` bytes. -/
def assemble (decMsgLen : Nat) (payload : List Byte) : List Byte :=
  [0x00, 0x00] ++ payload.map rev8 ++ List.replicate (decMsgLen - (payload.length + 2)) 0x00

/-- `Scr(x, seed)` (R110): the input XOR a keystream that does not depend on it. -/
def scramble (P : Params) (x : List Byte) (seed : Nat) : List Byte :=
  List.zipWith (· ^^^ ·) x (P.collab.keystream seed x.length)

/-- Encode step 3 (R99): `SCRB[length + 2] <- SCRB[length + 2] & 0x03`. -/
def maskTail (length : Nat) (scrb : List Byte) : List Byte := scrb.modify (length + 2) (· &&& 0x03)

/-- Chunk `m` of `nb` bytes of a buffer (R101, R103). -/
def chunk (nb : Nat) (buf : List Byte) (m : Nat) : List Byte := (buf.drop (m * nb)).take nb

/-- A transform on each of `nsym` chunks of `nb` bytes, each into an output of zeros (R101, R103, D33). -/
def perSymbol (transform : List Entry → List Byte → List Byte → List Byte) (T : List Entry) (nb nsym : Nat)
    (buf : List Byte) : List Byte :=
  (List.range nsym).flatMap fun m => transform T (chunk nb buf m) (List.replicate nb 0)

/-- Encode steps 1 to 3: the message the FEC encoder is given (R97 to R99). -/
def scrambledMessage (P : Params) (decMsgLen seed : Nat) (payload : List Byte) : List Byte :=
  maskTail payload.length (scramble P (assemble decMsgLen payload) seed)

/-- Encode steps 1 to 5: `OUT` of `PENC` (R97 to R102). -/
def encodePacket (P : Params) (row : RateRow) (T : List Entry) (l : PacketLengths) (seed : Nat)
    (payload : List Byte) : List Byte :=
  let enc := P.collab.fecEnc row.scheme l.decMsgLen (scrambledMessage P l.decMsgLen seed payload)
  perSymbol interleave T (row.ncbps / 8) l.nsym enc

/-- The recovered payload (R103): message bytes `[2, length + 2)`, each bit-reversed. -/
def extractPayload (length : Nat) (ds : List Byte) : List Byte := ((ds.drop 2).take length).map rev8

/-- Decode (R103): the payload, or `Uncorrectable`. -/
def decodePacket (P : Params) (row : RateRow) (T : List Entry) (l : PacketLengths) (seed length : Nat)
    (channelBits : List Byte) : FecResult :=
  let dil := perSymbol deinterleave T (row.ncbps / 8) l.nsym channelBits
  match P.collab.fecDec row.scheme l.decMsgLen dil with
  | .ok dec => .ok (extractPayload length (scramble P dec seed))
  | .uncorrectable => .uncorrectable

/-! ## The commands -/

/-- `CLEN rate, length` (R95). -/
def clen (P : Params) (rate length : Nat) (s : State) : State :=
  withRate P rate none s fun row =>
  withLengths row length none s fun l =>
  complete (s.setResult l.encMsgLen)

/-- `PENC rate, seed, length` (R102). -/
def penc (P : Params) (rate seed length : Nat) (s : State) : State :=
  withRate P rate (some .cb) s fun row =>
  withLengths row length (some .cb) s fun l =>
  requireLen .pb length (some .cb) s <|
  let s' := s.ensureTable rate row
  let out := encodePacket P row (s'.table rate row.ncbps) l seed (s.bytes .pb length)
  complete (((s'.setBytes .cb out).setLen .cb (BitVec.ofNat 32 l.encMsgLen)).setResult l.encMsgLen)

/-- `PDEC rate, seed, length` (R104). A `FecUncorrectable` leaves the ensured slot valid (R127). -/
def pdec (P : Params) (rate seed length : Nat) (s : State) : State :=
  withRate P rate (some .pb) s fun row =>
  withLengths row length (some .pb) s fun l =>
  requireLen .cb l.encMsgLen (some .pb) s <|
  let s' := s.ensureTable rate row
  match decodePacket P row (s'.table rate row.ncbps) l seed length (s.bytes .cb l.encMsgLen) with
  | .uncorrectable => raiseFault .fecUncorrectable (some .pb) s'
  | .ok payload => complete (((s'.setBytes .pb payload).setLen .pb (BitVec.ofNat 32 length)).setResult length)

/-- `CLEN` (R95). -/
def execClen (rate length : Nat) (s : State) : Host.Outcome State Fault Refusal := .next (clen block rate length s)

/-- `PENC` (R102). -/
def execPenc (rate seed length : Nat) (s : State) : Host.Outcome State Fault Refusal :=
  .next (penc block rate seed length s)

/-- `PDEC` (R104). -/
def execPdec (rate seed length : Nat) (s : State) : Host.Outcome State Fault Refusal :=
  .next (pdec block rate seed length s)

end Sys2Proof.Machine
end

