-- ==== Sys2Proof/Machine/Dispatch.lean ====
section
/-! DEFINITION. Which definition gives each command its meaning. -/

namespace Sys2Proof.Machine

def exec (i : Instr) (s : State) : Host.Outcome State Fault Refusal :=
  match i with
  | .gentbl rate => Sys2Proof.Machine.execGentbl rate s
  | .ilv rate => Sys2Proof.Machine.execIlv rate s
  | .dilv rate => Sys2Proof.Machine.execDilv rate s
  | .clen rate length => Sys2Proof.Machine.execClen rate length s
  | .penc rate seed length => Sys2Proof.Machine.execPenc rate seed length s
  | .pdec rate seed length => Sys2Proof.Machine.execPdec rate seed length s
  | .brev byte => Sys2Proof.Machine.execBrev byte s

end Sys2Proof.Machine
end

