-- ==== Sys2Proof/Machine/HostPort.lean ====
section
/-! DEFINITION. The host's side of the block: the register, buffer and table ports (R16 to R25, R31, R33), the flat
address map (R45) with the accesses it refuses (R40, R46), and reset (R134). -/

namespace Sys2Proof.Machine

/-! ## The command port -/

/-- A host write of `w` to `CMD` (R16): decode, then the command's own rule, or `IllegalCommand(w)` (R57, R124). -/
def runCommand (w : Word) (s : State) : Host.Outcome State Fault Refusal :=
  match decode w with
  | .ok i => exec i s
  | .error _ => .next (raiseIllegal w s)

/-! ## The abstract ports -/

/-- The value a host read of a register returns (R31). `CMD` holds no value and reads as 0 (R16). -/
def State.readReg (s : State) : Reg → Word
  | .cmd => 0
  | .status => s.status
  | .errCode => s.errCode
  | .errInfo => s.errInfo
  | .result => s.result
  | .pbLen => s.pbLen
  | .cbLen => s.cbLen
  | .sibLen => s.sibLen
  | .sobLen => s.sobLen
  | .tvalid => s.tvalidWord

/-- A host write of a register (R31, R33): `CMD` executes, the length registers store, the others ignore it. -/
def writeReg (r : Reg) (v : Word) (s : State) : Host.Outcome State Fault Refusal :=
  match r with
  | .cmd => runCommand v s
  | .pbLen => .next (s.setLen .pb v)
  | .cbLen => .next (s.setLen .cb v)
  | .sibLen => .next (s.setLen .sib v)
  | .sobLen => .next (s.setLen .sob v)
  | .status => .next s
  | .errCode => .next s
  | .errInfo => .next s
  | .result => .next s
  | .tvalid => .next s

/-- The entry the table window shows, where it has a defined value (R25): `TVALID[r] = 1` and `k < ncbps(r)`. -/
def State.definedEntry (P : Params) (s : State) (r k : Nat) : Option Entry :=
  match rateRow P r with
  | some row => if (s.slot r).valid then (s.table r row.ncbps)[k]? else none
  | none => none

/-- A host read of a table entry (R25): the packed word, or an unspecified word drawn afresh (U4, D32). -/
def readTable (P : Params) (r k : Nat) (s : State) : State :=
  match s.definedEntry P r k with
  | some e => { s with hostData := e.word }
  | none => { s with hostData := Config.freeWord s.draws, draws := s.draws + 1 }

/-- What refuses an access through an abstract port: an index beyond the capacity (R40). -/
def Port.refusal : Port → Option Refusal
  | .reg _ => none
  | .buf sp i => if i < sp.cap then none else some (.beyondCapacity i)
  | .tbl r k => if r < Config.nRates ∧ k < Config.ncbpsMax then none else some (.beyondCapacity k)

/-- A host read through a port. It changes nothing in the block (R33); a byte is read zero-extended (log entry 12). -/
def readPort (P : Params) (p : Port) (s : State) : Host.Outcome State Fault Refusal :=
  match p.refusal, p with
  | some why, _ => .refused why
  | none, .reg r => .next { s with hostData := s.readReg r }
  | none, .buf sp i => .next { s with hostData := (s.byte sp i).setWidth 32 }
  | none, .tbl r k => .next (readTable P r k s)

/-- A host write through a port (R33). A write to the table window is refused (U6), so it changes nothing (R25, R33; log
entry 7). -/
def writePort (p : Port) (v : Word) (s : State) : Host.Outcome State Fault Refusal :=
  match p.refusal, p with
  | some why, _ => .refused why
  | none, .reg r => writeReg r v s
  | none, .buf sp i => .next (s.setByte sp i (v.setWidth 8))
  | none, .tbl r k => .refused (.tableWindowWrite r k)

/-! ## The flat address map -/

/-- The register at a word offset (R31). -/
def regAt : Nat → Option Reg
  | 0x00 => some .cmd
  | 0x04 => some .status
  | 0x08 => some .errCode
  | 0x0C => some .errInfo
  | 0x10 => some .result
  | 0x14 => some .pbLen
  | 0x18 => some .cbLen
  | 0x1C => some .sibLen
  | 0x20 => some .sobLen
  | 0x24 => some .tvalid
  | _ => none

/-- The region of R45 an offset lies in. -/
inductive Region where
  | registers
  | buffer (space : Space)
  | tableWindow
  deriving DecidableEq, Repr

/-- The region of an offset (R45); none is unmapped (R46). -/
def regionOf (off : Nat) : Option Region :=
  if off < 0x28 then some .registers
  else if Space.sib.holds off then some (.buffer .sib)
  else if Space.sob.holds off then some (.buffer .sob)
  else if Space.pb.holds off then some (.buffer .pb)
  else if Space.cb.holds off then some (.buffer .cb)
  else if 0x8000 ≤ off ∧ off < 0xC000 then some .tableWindow
  else none

/-- A 32-bit access (R40): 4 bytes wide at a multiple of 4. -/
def wordAccess (off n : Nat) (p : Port) : Except Refusal Port :=
  if n ≠ 4 then .error (.accessWidth n) else if off % 4 ≠ 0 then .error (.misaligned off) else .ok p

/-- What an access of `n` bytes at an offset from `BASE` resolves to (R40, R45). -/
def resolve (off n : Nat) : Except Refusal Port :=
  match regionOf off with
  | none => .error (.unmapped off)
  | some (.buffer sp) => if n = 1 then .ok (.buf sp (off - sp.base)) else .error (.accessWidth n)
  | some .registers => wordAccess off n (.reg ((regAt (off / 4 * 4)).getD .cmd))
  | some .tableWindow => wordAccess off n (.tbl ((off - 0x8000) / 0x800) ((off - 0x8000) % 0x800 / 4))

/-- What an access at an absolute address resolves to (R45). -/
def resolveAddress (addr n : Nat) : Except Refusal Port :=
  if addr < Config.base then .error (.unmapped addr) else resolve (addr - Config.base) n

/-! ## One event of the outside world -/

/-- Reset (R134): every piece of state at its reset value, the buffers holding unspecified bytes anew (R135). The host's
own pending accesses and the counters of the free values are not the block's (log entry 11). -/
def resetBlock (s : State) : State :=
  { State.reset with bus := s.bus, hostData := s.hostData, epoch := s.epoch + 1, draws := s.draws }

/-- One host access or reset. -/
def hostEvent (P : Params) (e : HostEvent) (s : State) : Host.Outcome State Fault Refusal :=
  match e with
  | .read p => readPort P p s
  | .write p v => writePort p v s
  | .memRead addr n =>
    match resolveAddress addr n with
    | .ok p => readPort P p s
    | .error why => .refused why
  | .memWrite addr n v =>
    match resolveAddress addr n with
    | .ok p => writePort p v s
    | .error why => .refused why
  | .reset => .next (resetBlock s)

end Sys2Proof.Machine
end

