-- ==== Sys2Proof/Machine/Step.lean ====
section
/-! DEFINITION. One step: the next host access, and with it the whole command it may start (R16, R47, R140, R145). -/

namespace Sys2Proof.Machine

/-- One step. With no access pending the block is idle and changes nothing (R33, log entry 5). -/
def step (s : State) : Host.Outcome State Fault Refusal :=
  match s.bus with
  | [] => .next s
  | e :: rest => hostEvent block e { s with bus := rest }

/-- The host's next access is a write of the word to `CMD` (R16), which is how a command comes to run (log entry 5). -/
def State.withFetchWord (s : State) (nbits w : Nat) : State :=
  { s with bus := .write (.reg .cmd) (BitVec.ofNat 32 (w % 2 ^ nbits)) :: s.bus }

end Sys2Proof.Machine
end

