-- ==== Sys2Proof/Machine/Fixtures.lean ====
section
/-! DEFINITION. The test fixtures of R118: concrete collaborators with which `PENC` and `PDEC` can be run on numbers.
They are the spec's own invention and not the block's collaborators; `exec` does not use them. -/

namespace Sys2Proof.Machine

/-- `ScrKeystream_T(seed, n)[i] = (seed + i) mod 256` (R118). -/
def fixtureKeystream (seed n : Nat) : List Byte := (List.range n).map fun i => BitVec.ofNat 8 (seed + i)

/-- `FecEnc_T(FEC_R1_2, _, x)`: each byte followed by its complement (R118). -/
def fixtureFecEnc : List Byte → List Byte
  | [] => []
  | b :: rest => b :: (b ^^^ 0xFF) :: fixtureFecEnc rest

/-- The bytes at even indexes, if each is followed by its complement. -/
def fixturePairs : List Byte → Option (List Byte)
  | [] => some []
  | [_] => none
  | a :: b :: rest => if b = a ^^^ 0xFF then (fixturePairs rest).map (a :: ·) else none

/-- `FecDec_T(FEC_R1_2, _, y)` (R118). -/
def fixtureFecDec (y : List Byte) : FecResult :=
  match fixturePairs y with
  | some z => .ok z
  | none => .uncorrectable

theorem fixtureFecEnc_length (x : List Byte) : (fixtureFecEnc x).length = 2 * x.length := by
  induction x with
  | nil => rfl
  | cons b rest ih => simp only [fixtureFecEnc, List.length_cons, ih]; omega

theorem fixturePairs_fixtureFecEnc (x : List Byte) : fixturePairs (fixtureFecEnc x) = some x := by
  induction x with
  | nil => rfl
  | cons b rest ih => simp [fixtureFecEnc, fixturePairs, ih]

theorem length_of_fixturePairs : ∀ (y z : List Byte), fixturePairs y = some z → y.length = 2 * z.length
  | [], z, h => by cases h; rfl
  | [_], z, h => by cases h
  | a :: b :: rest, z, h => by
    simp only [fixturePairs] at h
    split at h
    · obtain ⟨w, hw, rfl⟩ := Option.map_eq_some_iff.1 h
      have := length_of_fixturePairs rest w hw
      simp only [List.length_cons]
      omega
    · cases h

/-- The fixtures of R118 with the laws they satisfy. R118 defines the codec for `FEC_R1_2` only; on the other schemes it
is the default of `Collaborators` (log entry 15). -/
def fixtureCollaborators : Collaborators where
  keystream := fixtureKeystream
  fecEnc scheme n x := if scheme = fecR1_2 then fixtureFecEnc x else (default : Collaborators).fecEnc scheme n x
  fecDec scheme n y := if scheme = fecR1_2 then fixtureFecDec y else (default : Collaborators).fecDec scheme n y
  keystream_length := by simp [fixtureKeystream]
  fecEnc_length := by
    intro scheme n m x hf hx
    split
    · subst scheme
      simp only [FecScheme.Fits, fecR1_2] at hf
      rw [fixtureFecEnc_length]
      omega
    · exact (default : Collaborators).fecEnc_length scheme n m x hf hx
  fecDec_length := by
    intro scheme n m y z hf hy h
    split at h
    · subst scheme
      simp only [FecScheme.Fits, fecR1_2] at hf
      unfold fixtureFecDec at h
      split at h
      · cases h
        have := length_of_fixturePairs y z ‹_›
        omega
      · cases h
    · exact (default : Collaborators).fecDec_length scheme n m y z hf hy h
  fecDec_fecEnc := by
    intro scheme n m x hf hx
    split
    · simp [fixtureFecDec, fixturePairs_fixtureFecEnc]
    · exact (default : Collaborators).fecDec_fecEnc scheme n m x hf hx

/-- The default rate table with the fixtures of R118. -/
def fixtures : Params := ⟨defaultRates, fixtureCollaborators⟩

end Sys2Proof.Machine
end

