-- ==== Sys2Proof/Safety.lean ====
section
/-! DEFINITION. What a good state is: the facts the spec's whole-machine rules promise of every state between two host
accesses, in the terms the statements use. -/

namespace Sys2Proof.Machine

/-- The outcome registers tell one story (R17 to R20, R120): nothing run since reset, or a command that completed, or
one that faulted. So `DONE` and `ERR` are never both 1, the bits above them read as 0, codes 7..15 never appear, and
`ERRINFO` is 0 unless a fault set it. -/
def OutcomeLegal (s : State) : Prop :=
  (s.status = 0 ∧ s.errCode = 0 ∧ s.errInfo = 0 ∧ s.result = 0) ∨
  (s.status = 1 ∧ s.errCode = 0 ∧ s.errInfo = 0) ∨
  (s.status = 2 ∧ 1 ≤ s.errCode.toNat ∧ s.errCode.toNat ≤ 6 ∧ s.result = 0)

/-- The cache invariant (R24): a valid slot holds what the pure generator gives for its rate. -/
def CacheSound (P : Params) (s : State) : Prop :=
  ∀ r row, rateRow P r = some row → (s.slot r).valid = true →
    ∀ k, k < row.ncbps → (s.slot r).entries[k]? = some (genEntry row.ncbps row.nbpsc k)

/-- A good state of this block: the outcome registers, the cache and the buffer memory are as the spec promises. -/
structure State.Inv (s : State) : Prop where
  outcome : OutcomeLegal s
  cache   : CacheSound block s
  memory  : s.mem.wf = true

/-- A length and a row for which both divisions of `Lengths` are exact (R94). -/
abbrev exactFor (row : RateRow) (length : Nat) : Prop :=
  (packetLengths row.ndbps row.ncbps length).exact row.ndbps row.ncbps = true

/-- The state with the outcome registers of a command that completed with result `n` (R20, R133), and nothing else
changed. -/
def State.withDone (s : State) (n : Nat) : State :=
  { s with status := 0x00000001, errCode := 0, errInfo := 0, result := BitVec.ofNat 32 n }

/-- The state with the outcome registers of a command that faulted with this code and information (R120, R127), and
nothing else changed. -/
def State.withFault (s : State) (code info : Nat) : State :=
  { s with status := 0x00000002, errCode := BitVec.ofNat 32 code, errInfo := BitVec.ofNat 32 info, result := 0 }

/-- The two states agree on everything but the buffer bytes: every register, the whole cache, and the host's side. -/
def State.SameButBuffers (s t : State) : Prop := { s with mem := ⟨[]⟩ } = { t with mem := ⟨[]⟩ }

/-- The words that select no command (R58, R59). -/
abbrev reservedWord (w : Word) : Prop :=
  field w 31 28 = 0 ∨ 8 ≤ field w 31 28 ∨
  ((field w 31 28 = 1 ∨ field w 31 28 = 2 ∨ field w 31 28 = 3) ∧ field w 23 0 ≠ 0) ∨
  (field w 31 28 = 4 ∧ field w 23 12 ≠ 0) ∨
  ((field w 31 28 = 5 ∨ field w 31 28 = 6) ∧ field w 16 12 ≠ 0) ∨
  (field w 31 28 = 7 ∧ field w 27 8 ≠ 0)

/-- The accesses of `n` bytes at an offset from `BASE` that are operations of the hardware (R40, R45). -/
abbrev allowedAccess (off n : Nat) : Prop :=
  (n = 4 ∧ off % 4 = 0 ∧ (off < 0x28 ∨ (0x8000 ≤ off ∧ off < 0xC000))) ∨
  (n = 1 ∧ ((0x0100 ≤ off ∧ off < 0x0124) ∨ (0x0140 ≤ off ∧ off < 0x0164) ∨
    (0x1000 ≤ off ∧ off < 0x2000) ∨ (0x4000 ≤ off ∧ off < 0x6010)))

/-- The writes of `n` bytes among them: the table window is read-only (R45, U6). -/
abbrev allowedWrite (off n : Nat) : Prop := allowedAccess off n ∧ ¬ (0x8000 ≤ off ∧ off < 0xC000)

end Sys2Proof.Machine
end

