-- ==== Sys2Proof/Certificates/Slice0/Obligations.lean ====
section
/-! DEFINITION. The statements for the provers, one `def Obligations.<Name> : Prop` each, with the rule of spec/ each
formalises. OBLIGATIONS.json lists them. -/

open Sys2Proof Sys2Proof.Machine

/-! ## Encoding -/

/-- Words written out from the formats of R51 to R54 decode to the commands they stand for, and words with a reserved
opcode or a reserved bit set decode to none (vector V12). A sanity statement on fixed words. -/
def Obligations.CommandWordsDecodeAsTheSpecListsThem : Prop :=
  decode 0x15000000 = .ok (.gentbl 5) ∧ decode 0x25000000 = .ok (.ilv 5) ∧ decode 0x35000000 = .ok (.dilv 5) ∧
  decode 0x46000064 = .ok (.clen 6 100) ∧ decode 0x54BA000A = .ok (.penc 4 0x5D 10) ∧
  decode 0x64BA000A = .ok (.pdec 4 0x5D 10) ∧ decode 0x700000A7 = .ok (.brev 0xA7) ∧
  decode 0x5FFE0FFF = .ok (.penc 15 0x7F 4095) ∧ decode 0x18000000 = .ok (.gentbl 8) ∧
  ∀ w ∈ [(0x00000000 : Word), 0x80000000, 0xFFFFFFFF, 0x15000001, 0x25010000, 0x46001064, 0x46020064, 0x54BB000A,
    0x54BA100A, 0x710000A7, 0x700001A7], ∀ i, decode w ≠ .ok i

/-- R57 and R61: every command whose operands fit their fields is what its word decodes to. -/
def Obligations.DecodeOfEncodeIsTheCommand : Prop :=
  ∀ i : Instr, i.wf = true → decode (encode i) = .ok i

/-- R55 and R57: a word that decodes has operands that fit their fields and is the word its command assembles to, so no
two words stand for one command. -/
def Obligations.DecodedWordsEncodeBackToThemselves : Prop :=
  ∀ (w : Word) (i : Instr), decode w = .ok i → i.wf = true ∧ encode i = w

/-- R55 and R56: the decoder reads a command from exactly the words its row's match and mask select, no word is selected
by two rows, and every operand is its field of the word, unsigned and unscaled. -/
def Obligations.DecoderAgreesWithTheMatchAndMaskTable : Prop :=
  (∀ w : Word, ∀ row ∈ opcodeMap, row.accepts w ↔ ∃ i, decode w = .ok i ∧ i.mnemonic = row.mnemonic) ∧
  (∀ w : Word, (∃ i, decode w = .ok i) → ∃ row ∈ opcodeMap, row.accepts w) ∧
  (opcodeMap.Pairwise fun a b => ∀ w, ¬ (a.accepts w ∧ b.accepts w)) ∧
  ∀ (w : Word) (i : Instr), decode w = .ok i →
    let rate := w.toNat / 2 ^ 24 % 16
    let seed := w.toNat / 2 ^ 17 % 128
    let length := w.toNat % 4096
    match i with
    | .gentbl r | .ilv r | .dilv r => r = rate
    | .clen r len => r = rate ∧ len = length
    | .penc r sd len | .pdec r sd len => r = rate ∧ sd = seed ∧ len = length
    | .brev b => b = w.toNat % 256

/-- R58, R59 and R124: a word with a reserved opcode, or with a reserved bit of a legal opcode set, is illegal, and no
other word is; written to `CMD` it records `IllegalCommand(w)` and changes nothing else. -/
def Obligations.ReservedWordsRaiseIllegalCommand : Prop :=
  ∀ w : Word,
    (reservedWord w → ∀ (s : State) (rest : List HostEvent),
      step { s with bus := .write (.reg .cmd) w :: rest } = .next (State.withFault { s with bus := rest } 4 w.toNat)) ∧
    (¬ reservedWord w → ∃ i, decode w = .ok i)

/-! ## The step and the host's accesses -/

/-- R16: when the host's next access writes a word that decodes to a command, the step is that command's effect, from the
state with only that access consumed. The access may be the command port, the flat address `BASE + 0x00`, or the one
`withFetchWord` places. -/
def Obligations.StepRunsTheDecodedCommand : Prop :=
  ∀ (s : State) (rest : List HostEvent) (w : Word) (i : Instr), decode w = .ok i →
    step { s with bus := .write (.reg .cmd) w :: rest } = exec i { s with bus := rest } ∧
    step { s with bus := .memWrite Config.base 4 w :: rest } = exec i { s with bus := rest } ∧
    step (s.withFetchWord 32 w.toNat) = exec i s

/-- R33, all five clauses: a host write to a length register or to a buffer byte changes that register or byte and nothing
else; a host write to a read-only register changes nothing; a host write to the table window is refused (U6; log entry 7);
host reads change nothing; the idle block changes nothing. The model's choices in it: a byte write takes the low 8 bits of
the bus word (log entry 12); the access list and the value read (log entry 5) and the draw counter (log entry 6) are the
model's own fields. -/
def Obligations.HostAccessesChangeOnlyWhatTheyName : Prop :=
  (∀ (s : State) (rest : List HostEvent) (v : Word),
    step { s with bus := .write (.reg .pbLen) v :: rest } = .next { s with bus := rest, pbLen := v } ∧
    step { s with bus := .write (.reg .cbLen) v :: rest } = .next { s with bus := rest, cbLen := v } ∧
    step { s with bus := .write (.reg .sibLen) v :: rest } = .next { s with bus := rest, sibLen := v } ∧
    step { s with bus := .write (.reg .sobLen) v :: rest } = .next { s with bus := rest, sobLen := v }) ∧
  (∀ (s : State) (rest : List HostEvent) (sp : Space) (i : Nat) (v : Word), i < sp.cap →
    ∃ t, step { s with bus := .write (.buf sp i) v :: rest } = .next t ∧ t.byte sp i = v.setWidth 8 ∧
      (∀ sp' i', ¬ (sp' = sp ∧ i' = i) → t.byte sp' i' = s.byte sp' i') ∧
      State.SameButBuffers { s with bus := rest } t) ∧
  (∀ (s : State) (rest : List HostEvent) (v : Word),
    (∀ r ∈ [Reg.status, .errCode, .errInfo, .result, .tvalid],
      step { s with bus := .write (.reg r) v :: rest } = .next { s with bus := rest }) ∧
    ∀ r k, r < 8 → k < 512 →
      step { s with bus := .write (.tbl r k) v :: rest } = .refused (.tableWindowWrite r k)) ∧
  (∀ (s : State) (rest : List HostEvent) (p : Port) (t : State),
    step { s with bus := .read p :: rest } = .next t →
      t = { s with bus := rest, hostData := t.hostData, draws := t.draws }) ∧
  ∀ s : State, s.bus = [] → step s = .next s

/-- R26, R31 and R33: what a host read of each register returns, `CMD` reading as 0 (R16), and of each buffer byte; nothing
of the block changes. That the byte stands zero-extended in the model's own `hostData` is log entries 5 and 12. -/
def Obligations.RegisterReadsReturnTheRegisters : Prop :=
  ∀ (s : State) (rest : List HostEvent),
    let reads (r : Reg) (v : Word) : Prop :=
      step { s with bus := .read (.reg r) :: rest } = .next { s with bus := rest, hostData := v }
    reads .cmd 0 ∧ reads .status s.status ∧ reads .errCode s.errCode ∧ reads .errInfo s.errInfo ∧
    reads .result s.result ∧ reads .pbLen s.pbLen ∧ reads .cbLen s.cbLen ∧ reads .sibLen s.sibLen ∧
    reads .sobLen s.sobLen ∧ reads .tvalid s.tvalidWord ∧
    ∀ (sp : Space) (i : Nat), i < sp.cap →
      step { s with bus := .read (.buf sp i) :: rest } =
        .next { s with bus := rest, hostData := (s.byte sp i).setWidth 32 }

/-- R23: at offset 0x24 the host reads bit `r` as `TVALID[r]` for `r` in 0..7 and the bits above as 0; a host write there
is ignored. -/
def Obligations.TvalidRegisterShowsTheValidBits : Prop :=
  ∀ (s : State) (rest : List HostEvent) (v : Word),
    (∃ t, step { s with bus := .memRead (Config.base + 0x24) 4 :: rest } = .next t ∧
      ∀ b, b < 32 → t.hostData.getLsbD b = (decide (b < 8) && (s.slot b).valid)) ∧
    step { s with bus := .memWrite (Config.base + 0x24) 4 v :: rest } = .next { s with bus := rest }

/-- R40, R46 and U6: at the flat addresses, exactly the 32-bit accesses to registers at multiples of 4, the 32-bit reads of
table words at multiples of 4 and the 8-bit accesses to buffer bytes below the capacities are operations; every other
access is refused, wherever the block is based. The abstract ports refuse the indexes at and beyond a capacity and every
write to the table window (log entry 7). -/
def Obligations.HostAccessesOutsideTheRulesAreRefused : Prop :=
  (∀ (s : State) (rest : List HostEvent) (addr n : Nat) (v : Word),
    ((¬ ∃ off, addr = Config.base + off ∧ allowedAccess off n) →
      ∃ why, step { s with bus := .memRead addr n :: rest } = .refused why) ∧
    ((¬ ∃ off, addr = Config.base + off ∧ allowedWrite off n) →
      ∃ why, step { s with bus := .memWrite addr n v :: rest } = .refused why) ∧
    ((∃ off, addr = Config.base + off ∧ allowedAccess off n) →
      ∃ t, step { s with bus := .memRead addr n :: rest } = .next t) ∧
    ((∃ off, addr = Config.base + off ∧ allowedWrite off n) →
      ∃ t, step { s with bus := .memWrite addr n v :: rest } = .next t)) ∧
  (∀ (s : State) (rest : List HostEvent) (sp : Space) (i : Nat) (v : Word), sp.cap ≤ i →
    (∃ why, step { s with bus := .read (.buf sp i) :: rest } = .refused why) ∧
    ∃ why, step { s with bus := .write (.buf sp i) v :: rest } = .refused why) ∧
  ∀ (s : State) (rest : List HostEvent) (r k : Nat) (v : Word),
    (8 ≤ r ∨ 512 ≤ k → ∃ why, step { s with bus := .read (.tbl r k) :: rest } = .refused why) ∧
    ∃ why, step { s with bus := .write (.tbl r k) v :: rest } = .refused why

/-- R45: the flat map is the binding of the abstract ports to addresses, region by region; every offset outside the
regions is unmapped, and refused; `BASE` is a multiple of 0x10000 (D31). -/
def Obligations.FlatMapBindsTheAbstractPorts : Prop :=
  Config.base % 0x10000 = 0 ∧
  ∀ (s : State) (rest : List HostEvent) (v : Word),
    let same (off n : Nat) (p : Port) : Prop :=
      step { s with bus := .memRead (Config.base + off) n :: rest } = step { s with bus := .read p :: rest } ∧
      step { s with bus := .memWrite (Config.base + off) n v :: rest } = step { s with bus := .write p v :: rest }
    (same 0x00 4 (.reg .cmd) ∧ same 0x04 4 (.reg .status) ∧ same 0x08 4 (.reg .errCode) ∧
      same 0x0C 4 (.reg .errInfo) ∧ same 0x10 4 (.reg .result) ∧ same 0x14 4 (.reg .pbLen) ∧
      same 0x18 4 (.reg .cbLen) ∧ same 0x1C 4 (.reg .sibLen) ∧ same 0x20 4 (.reg .sobLen) ∧
      same 0x24 4 (.reg .tvalid)) ∧
    (∀ i, i < 36 → same (0x0100 + i) 1 (.buf .sib i) ∧ same (0x0140 + i) 1 (.buf .sob i)) ∧
    (∀ i, i < 4096 → same (0x1000 + i) 1 (.buf .pb i)) ∧
    (∀ i, i < 8208 → same (0x4000 + i) 1 (.buf .cb i)) ∧
    (∀ r k, r < 8 → k < 512 → same (0x8000 + 0x800 * r + 4 * k) 4 (.tbl r k)) ∧
    ∀ off n, (0x28 ≤ off ∧ off < 0x0100) ∨ (0x0124 ≤ off ∧ off < 0x0140) ∨ (0x0164 ≤ off ∧ off < 0x1000) ∨
        (0x2000 ≤ off ∧ off < 0x4000) ∨ (0x6010 ≤ off ∧ off < 0x8000) ∨ 0xC000 ≤ off →
      step { s with bus := .memRead (Config.base + off) n :: rest } = .refused (.unmapped off) ∧
      step { s with bus := .memWrite (Config.base + off) n v :: rest } = .refused (.unmapped off)

/-- R25: the table window shows a defined entry packed with `src_byte` in the most significant byte, and an unspecified
word where the slot is not valid or `k >= ncbps(r)`; that this word is a fresh draw is the model's choice (log entry 6).
The window is read-only: a host write there is refused (U6; log entry 7). -/
def Obligations.TableWindowShowsThePackedEntry : Prop :=
  ∀ (s : State) (rest : List HostEvent) (r k : Nat) (row : RateRow) (v : Word), rateRow block r = some row → k < 512 →
    (∀ e, (s.slot r).valid = true → k < row.ncbps → (s.slot r).entries[k]? = some e →
      ∃ t, step { s with bus := .read (.tbl r k) :: rest } = .next t ∧
        t.hostData.toNat = e.srcByte.toNat * 2 ^ 24 + e.dstByte.toNat * 2 ^ 16 + e.srcMask.toNat * 2 ^ 8 +
          e.dstMask.toNat) ∧
    ((s.slot r).valid = false ∨ row.ncbps ≤ k →
      step { s with bus := .read (.tbl r k) :: rest } =
        .next { s with bus := rest, hostData := Config.freeWord s.draws, draws := s.draws + 1 }) ∧
    step { s with bus := .write (.tbl r k) v :: rest } = .refused (.tableWindowWrite r k)

/-! ## Reset -/

/-- R30 and R135: right after reset every outcome and length register is 0 and no slot is valid. -/
def Obligations.ResetStateHasTheResetValues : Prop :=
  State.reset.status = 0 ∧ State.reset.errCode = 0 ∧ State.reset.errInfo = 0 ∧ State.reset.result = 0 ∧
  State.reset.pbLen = 0 ∧ State.reset.cbLen = 0 ∧ State.reset.sibLen = 0 ∧ State.reset.sobLen = 0 ∧
  (∀ r, (State.reset.slot r).valid = false) ∧ State.reset.tvalidWord = 0

/-- R134 and R135: reset in any state puts the registers and valid bits at their reset values and leaves every buffer byte
unspecified. The model's choices in it: the unspecified byte is the free value of a new epoch (log entry 4); the host's
remaining accesses and its last read value are kept (log entry 11). -/
def Obligations.ResetEventRestoresTheResetState : Prop :=
  ∀ (s : State) (rest : List HostEvent),
    ∃ t, step { s with bus := .reset :: rest } = .next t ∧
      t.status = 0 ∧ t.errCode = 0 ∧ t.errInfo = 0 ∧ t.result = 0 ∧
      t.pbLen = 0 ∧ t.cbLen = 0 ∧ t.sibLen = 0 ∧ t.sobLen = 0 ∧ (∀ r, (t.slot r).valid = false) ∧
      (∀ sp i, t.byte sp i = Config.powerOnByte (s.epoch + 1) (sp.base + i)) ∧
      t.bus = rest ∧ t.hostData = s.hostData

/-- R22 and R134: no step but a reset clears a valid bit. -/
def Obligations.OnlyResetClearsAValidBit : Prop :=
  ∀ s t : State, step s = .next t → s.bus.head? ≠ some .reset →
    ∀ r, (s.slot r).valid = true → (t.slot r).valid = true

/-! ## Rate table -/

/-- R63 to R65: the block's rate table has the eight rows of the default table (log entry 1), all four columns, a scheme
being its coding rate (log entry 3: 1/2, 2/3 or 3/4); an identifier above 7 has no row; the table meets the constraints
of R8 and those of log entries 2 and 3. -/
def Obligations.RateLookupReturnsTheDefaultRows : Prop :=
  (List.range 8).map (rateRow block) =
    [some { nbpsc := 1, ncbps := 48, ndbps := 24, scheme := ⟨1, 2⟩ },
     some { nbpsc := 1, ncbps := 48, ndbps := 36, scheme := ⟨3, 4⟩ },
     some { nbpsc := 2, ncbps := 96, ndbps := 48, scheme := ⟨1, 2⟩ },
     some { nbpsc := 2, ncbps := 96, ndbps := 72, scheme := ⟨3, 4⟩ },
     some { nbpsc := 4, ncbps := 192, ndbps := 96, scheme := ⟨1, 2⟩ },
     some { nbpsc := 4, ncbps := 192, ndbps := 144, scheme := ⟨3, 4⟩ },
     some { nbpsc := 6, ncbps := 288, ndbps := 192, scheme := ⟨2, 3⟩ },
     some { nbpsc := 6, ncbps := 288, ndbps := 216, scheme := ⟨3, 4⟩ }] ∧
  (∀ r, 7 < r → rateRow block r = none) ∧ block.rates.wf = true

/-! ## BREV -/

/-- R69: bit `7-i` of `rev8(b)` is bit `i` of `b`. -/
def Obligations.ReversedByteHasTheBitsInReverse : Prop :=
  ∀ b : Byte, ∀ i, i < 8 → (rev8 b).getLsbD (7 - i) = b.getLsbD i

/-- R70: the table the spec prints is the bit reversal of R69, byte for byte. -/
def Obligations.BitReversalRomFollowsItsRule : Prop :=
  bitrevRom.length = 256 ∧ ∀ b : Byte, bitrev b = rev8 b

/-- R72: the bit reversal is its own inverse, and a bijection on the bytes. -/
def Obligations.BitReversalIsItsOwnInverse : Prop :=
  (∀ b : Byte, rev8 (rev8 b) = b) ∧ Function.Bijective rev8

/-- R71: `BREV byte` completes on every byte in every state, with the reversed byte, zero-extended, in `RESULT`, and
touches nothing but the outcome registers. -/
def Obligations.BrevReturnsTheReversedByteOnly : Prop :=
  ∀ (byte : Nat) (s : State), byte < 256 →
    decode (BitVec.ofNat 32 (0x70000000 + byte)) = .ok (.brev byte) ∧
    exec (.brev byte) s = .next (s.withDone (rev8 (BitVec.ofNat 8 byte)).toNat)

/-! ## GENTBL and the table -/

/-- R75: the four fields of every entry of a table, with the formula of the spec written out. -/
def Obligations.TableEntriesFollowTheFormula : Prop :=
  ∀ (row : RateRow) (k : Nat), row.wf = true → k < row.ncbps →
    let s := max 1 (row.nbpsc / 2)
    let i := row.ncbps / 16 * (k % 16) + k / 16
    let j := s * (i / s) + (i + row.ncbps - 16 * i / row.ncbps) % s
    let e := genEntry row.ncbps row.nbpsc k
    e.srcByte.toNat = k / 8 ∧ e.srcMask.toNat = 2 ^ (7 - k % 8) ∧
    e.dstByte.toNat = j / 8 ∧ e.dstMask.toNat = 2 ^ (7 - j % 8)

/-- R79: for every row meeting R8, the destination positions of the entries, read as `dst_byte*8 + bit_index(dst_mask)`,
are a permutation of `[0, ncbps)`: none outside, and each from exactly one `k`. -/
def Obligations.DestinationPositionsAreAPermutation : Prop :=
  ∀ row : RateRow, row.wf = true →
    let pos (k : Nat) : Nat := (genEntry row.ncbps row.nbpsc k).dstByte.toNat * 8 +
      (7 - Nat.log2 (genEntry row.ncbps row.nbpsc k).dstMask.toNat)
    (∀ k, k < row.ncbps → pos k < row.ncbps) ∧ ∀ j, j < row.ncbps → ∃! k, k < row.ncbps ∧ pos k = j

/-- R77: `GENTBL rate` completes for every supported rate in every state: the slot becomes valid with the `ncbps` entries
of the generator, entries at `ncbps` and above and every other slot stay, and of the rest only the outcome registers
change, `RESULT` to `ncbps`. A rate of 8..15 records `InvalidRate(rate)` and touches nothing else. -/
def Obligations.GentblFillsItsSlotOnly : Prop :=
  (∀ (rate : Nat) (s : State), 8 ≤ rate → rate ≤ 15 → exec (.gentbl rate) s = .next (s.withFault 1 rate)) ∧
  ∀ (rate : Nat) (row : RateRow) (s : State), rateRow block rate = some row →
    decode (BitVec.ofNat 32 (0x10000000 + rate * 2 ^ 24)) = .ok (.gentbl rate) ∧
    ∃ t, exec (.gentbl rate) s = .next t ∧ (t.slot rate).valid = true ∧
      (∀ k, k < row.ncbps → (t.slot rate).entries[k]? = some (genEntry row.ncbps row.nbpsc k)) ∧
      (∀ k, row.ncbps ≤ k → (t.slot rate).entries[k]? = (s.slot rate).entries[k]?) ∧
      (∀ r, r ≠ rate → t.slot r = s.slot r) ∧
      { t with cache := s.cache } = s.withDone row.ncbps

/-- R24 and R77: in a state whose cache is sound, `GENTBL` of a slot that is already valid changes nothing but the outcome
registers. -/
def Obligations.GentblOfAValidSlotChangesOnlyTheOutcome : Prop :=
  ∀ (rate : Nat) (row : RateRow) (s : State), rateRow block rate = some row → CacheSound block s →
    (s.slot rate).valid = true → exec (.gentbl rate) s = .next (s.withDone row.ncbps)

/-! ## ILV and DILV -/

/-- R87: on a zeroed output, interleaving moves coded bit `k` to position `j(k)` and deinterleaving moves the bit at `j(k)`
back to `k`, for every row meeting R8 and every symbol. -/
def Obligations.TransformsMoveBitsAsTheTableSays : Prop :=
  ∀ (row : RateRow) (inp : List Byte), row.wf = true → inp.length = row.ncbps / 8 →
    let T := genTable row.ncbps row.nbpsc
    let zeros := List.replicate (row.ncbps / 8) (0 : Byte)
    ∀ k, k < row.ncbps →
      bitAt (interleave T inp zeros) (destPos row.ncbps row.nbpsc k) = bitAt inp k ∧
      bitAt (deinterleave T inp zeros) k = bitAt inp (destPos row.ncbps row.nbpsc k)

/-- R88: deinterleaving inverts interleaving and interleaving inverts deinterleaving, on zeroed outputs, and both keep the
number of set bits. -/
def Obligations.DeinterleavingInvertsInterleaving : Prop :=
  ∀ (row : RateRow) (x : List Byte), row.wf = true → x.length = row.ncbps / 8 →
    let T := genTable row.ncbps row.nbpsc
    let zeros := List.replicate (row.ncbps / 8) (0 : Byte)
    let setBits (b : List Byte) : Nat := (List.range row.ncbps).countP (bitAt b)
    deinterleave T (interleave T x zeros) zeros = x ∧ interleave T (deinterleave T x zeros) zeros = x ∧
    setBits (interleave T x zeros) = setBits x ∧ setBits (deinterleave T x zeros) = setBits x

/-- R89: into an output that is not zero, either transform gives the bitwise OR of the old content and the result on a
zeroed output, for every table. -/
def Obligations.TransformsOrIntoTheOldOutput : Prop :=
  ∀ (T : List Entry) (inp out : List Byte),
    let zeros := List.replicate out.length (0 : Byte)
    interleave T inp out = List.zipWith (· ||| ·) out (interleave T inp zeros) ∧
    deinterleave T inp out = List.zipWith (· ||| ·) out (deinterleave T inp zeros)

/-- R91: the order of the entries does not matter. -/
def Obligations.EntryOrderDoesNotMatter : Prop :=
  ∀ (T T' : List Entry) (inp out : List Byte), T.Perm T' →
    interleave T inp out = interleave T' inp out ∧ deinterleave T inp out = deinterleave T' inp out

/-- R85: `ILV rate` faults `InvalidRate`, `TableNotValid` or `BufferSizeMismatch`, in this order, with nothing else
changed. With its slot valid and both declared lengths exact it completes: `SOB[0:nb)` becomes the interleaving of
`SIB[0:nb)` into the old `SOB[0:nb)`, every other buffer byte and everything else but the outcome registers stays. -/
def Obligations.IlvInterleavesOneSymbolIntoSob : Prop :=
  (∀ (rate : Nat) (s : State), 8 ≤ rate → rate ≤ 15 → exec (.ilv rate) s = .next (s.withFault 1 rate)) ∧
  (∀ (rate : Nat) (s : State), rate ≤ 7 → (s.slot rate).valid = false →
    exec (.ilv rate) s = .next (s.withFault 5 rate)) ∧
  (∀ (rate : Nat) (row : RateRow) (s : State), rateRow block rate = some row → (s.slot rate).valid = true →
    s.sibLen.toNat ≠ row.ncbps / 8 ∨ s.sobLen.toNat ≠ row.ncbps / 8 →
    exec (.ilv rate) s = .next (s.withFault 2 (row.ncbps / 8))) ∧
  ∀ (rate : Nat) (row : RateRow) (s : State), rateRow block rate = some row → (s.slot rate).valid = true →
    s.sibLen.toNat = row.ncbps / 8 → s.sobLen.toNat = row.ncbps / 8 →
    let nb := row.ncbps / 8
    let out := interleave ((s.slot rate).entries.take row.ncbps) (s.bytes .sib nb) (s.bytes .sob nb)
    decode (BitVec.ofNat 32 (0x20000000 + rate * 2 ^ 24)) = .ok (.ilv rate) ∧
    ∃ t, exec (.ilv rate) s = .next t ∧ (∀ i, i < nb → t.byte .sob i = out.getD i 0) ∧
      (∀ sp i, ¬ (sp = .sob ∧ i < nb) → t.byte sp i = s.byte sp i) ∧ State.SameButBuffers (s.withDone nb) t

/-- R86: the same of `DILV rate` with the deinterleaving. -/
def Obligations.DilvDeinterleavesOneSymbolIntoSob : Prop :=
  (∀ (rate : Nat) (s : State), 8 ≤ rate → rate ≤ 15 → exec (.dilv rate) s = .next (s.withFault 1 rate)) ∧
  (∀ (rate : Nat) (s : State), rate ≤ 7 → (s.slot rate).valid = false →
    exec (.dilv rate) s = .next (s.withFault 5 rate)) ∧
  (∀ (rate : Nat) (row : RateRow) (s : State), rateRow block rate = some row → (s.slot rate).valid = true →
    s.sibLen.toNat ≠ row.ncbps / 8 ∨ s.sobLen.toNat ≠ row.ncbps / 8 →
    exec (.dilv rate) s = .next (s.withFault 2 (row.ncbps / 8))) ∧
  ∀ (rate : Nat) (row : RateRow) (s : State), rateRow block rate = some row → (s.slot rate).valid = true →
    s.sibLen.toNat = row.ncbps / 8 → s.sobLen.toNat = row.ncbps / 8 →
    let nb := row.ncbps / 8
    let out := deinterleave ((s.slot rate).entries.take row.ncbps) (s.bytes .sib nb) (s.bytes .sob nb)
    decode (BitVec.ofNat 32 (0x30000000 + rate * 2 ^ 24)) = .ok (.dilv rate) ∧
    ∃ t, exec (.dilv rate) s = .next t ∧ (∀ i, i < nb → t.byte .sob i = out.getD i 0) ∧
      (∀ sp i, ¬ (sp = .sob ∧ i < nb) → t.byte sp i = s.byte sp i) ∧ State.SameButBuffers (s.withDone nb) t

/-- R85 to R89 at the machine: in a state whose cache is sound, a completing `ILV` ORs coded bit `k` of `SIB` into bit
`j(k)` of `SOB`, and a completing `DILV` ORs bit `j(k)` of `SIB` into bit `k` of `SOB`, for every `k` of the symbol. -/
def Obligations.SymbolCommandsMoveEachCodedBit : Prop :=
  ∀ (rate : Nat) (row : RateRow) (s : State), rateRow block rate = some row → CacheSound block s →
    (s.slot rate).valid = true → s.sibLen.toNat = row.ncbps / 8 → s.sobLen.toNat = row.ncbps / 8 →
    let nb := row.ncbps / 8
    ∃ t u, exec (.ilv rate) s = .next t ∧ exec (.dilv rate) s = .next u ∧
      ∀ k, k < row.ncbps →
        let j := destPos row.ncbps row.nbpsc k
        bitAt (t.bytes .sob nb) j = (bitAt (s.bytes .sob nb) j || bitAt (s.bytes .sib nb) k) ∧
        bitAt (u.bytes .sob nb) k = (bitAt (s.bytes .sob nb) k || bitAt (s.bytes .sib nb) j)

/-- R125: `ILV` and `DILV` of a supported rate whose table was never generated record `TableNotValid(rate)`, whatever the
declared lengths, and change nothing else. Nothing else raises that fault: `PENC` and `PDEC` never do. -/
def Obligations.SymbolCommandsFaultWithoutATable : Prop :=
  (∀ (rate : Nat) (s : State), rate ≤ 7 → (s.slot rate).valid = false →
    exec (.ilv rate) s = .next (s.withFault 5 rate) ∧ exec (.dilv rate) s = .next (s.withFault 5 rate)) ∧
  ∀ (i : Instr) (s t : State), exec i s = .next t → t.errCode = 5 →
    ∃ rate, rate ≤ 7 ∧ (s.slot rate).valid = false ∧ (i = .ilv rate ∨ i = .dilv rate)

/-! ## Lengths and CLEN -/

/-- R94: for every row meeting R8, the lengths are exact if and only if 8 divides `ndata`; then `enc_msg_len` is `nsym`
symbols of `ncbps div 8` bytes. -/
def Obligations.ExactLengthsAreWholeSymbols : Prop :=
  ∀ (row : RateRow) (length : Nat), row.wf = true →
    let l := packetLengths row.ndbps row.ncbps length
    (exactFor row length ↔ (l.nsym * row.ndbps) % 8 = 0) ∧
    (exactFor row length → l.encMsgLen = l.nsym * (row.ncbps / 8) ∧ 8 * l.decMsgLen = l.ndata ∧
      l.encMsgLen * row.ndbps = l.decMsgLen * row.ncbps)

/-- R107: with exact lengths the tail byte `length + 2` is inside the message, and the message has at least
`length + 3` bytes. -/
def Obligations.TailByteLiesInsideTheMessage : Prop :=
  ∀ (row : RateRow) (length : Nat), row.wf = true → exactFor row length →
    let l := packetLengths row.ndbps row.ncbps length
    8 * (length + 2) + 6 ≤ 8 * l.decMsgLen ∧ length + 2 < l.decMsgLen ∧ length + 3 ≤ l.decMsgLen

/-- R43: no packet outgrows its buffer: for every supported rate and encodable length with exact lengths, the coded packet
fits `CB` and the payload fits `PB`. -/
def Obligations.EveryPacketFitsItsBuffers : Prop :=
  ∀ (rate : Nat) (row : RateRow) (length : Nat), rateRow block rate = some row → length ≤ 4095 → exactFor row length →
    (packetLengths row.ndbps row.ncbps length).encMsgLen ≤ 8208 ∧ length < 4096

/-- R95: `CLEN rate, length` faults `InvalidRate` or `InexactLength(nsym)`; for a supported rate and exact lengths it
completes in every state with the encoded length of R93 in `RESULT`. It touches nothing but the outcome registers. -/
def Obligations.ClenReturnsTheEncodedLengthOnly : Prop :=
  (∀ (rate length : Nat) (s : State), 8 ≤ rate → rate ≤ 15 →
    exec (.clen rate length) s = .next (s.withFault 1 rate)) ∧
  ∀ (rate length : Nat) (row : RateRow) (s : State), rateRow block rate = some row → length ≤ 4095 →
    let nbits := 16 + 8 * length + 6
    let nsym := (nbits + row.ndbps - 1) / row.ndbps
    let decMsgLen := nsym * row.ndbps / 8
    decode (BitVec.ofNat 32 (0x40000000 + rate * 2 ^ 24 + length)) = .ok (.clen rate length) ∧
    (nsym * row.ndbps % 8 ≠ 0 → exec (.clen rate length) s = .next (s.withFault 6 nsym)) ∧
    (nsym * row.ndbps % 8 = 0 →
      exec (.clen rate length) s = .next (s.withDone (decMsgLen * row.ncbps / row.ndbps)))

/-! ## The packet pipeline -/

/-- R97: the assembled message: two zero SERVICE bytes, the payload bytes each bit-reversed, and zeros to the end. -/
def Obligations.MessageIsServicePayloadAndZeros : Prop :=
  ∀ (decMsgLen : Nat) (payload : List Byte), payload.length + 2 ≤ decMsgLen →
    (assemble decMsgLen payload).length = decMsgLen ∧
    (assemble decMsgLen payload).getD 0 0xFF = 0 ∧ (assemble decMsgLen payload).getD 1 0xFF = 0 ∧
    (∀ i, i < payload.length → (assemble decMsgLen payload).getD (2 + i) 0 = rev8 (payload.getD i 0)) ∧
    ∀ i, payload.length + 2 ≤ i → i < decMsgLen → (assemble decMsgLen payload).getD i 0xFF = 0

/-- R110 and R111: the scrambler XORs each byte with its keystream byte; it keeps the length, is its own inverse, and is
local to each byte, whatever the keystream. -/
def Obligations.ScramblerIsLocalAndItsOwnInverse : Prop :=
  ∀ (P : Params) (x : List Byte) (seed : Nat),
    (∀ i, i < x.length →
      (scramble P x seed).getD i 0 = x.getD i 0 ^^^ (P.collab.keystream seed x.length).getD i 0) ∧
    (scramble P x seed).length = x.length ∧ scramble P (scramble P x seed) seed = x ∧
    ∀ (i j : Nat) (v : Byte), j ≠ i → (scramble P (x.set i v) seed)[j]? = (scramble P x seed)[j]?

/-- R99: whatever the seed and the keystream, the six tail bits of the message given to the FEC encoder are zero; the two
padding bits of that byte and every other byte are as the scrambler left them. -/
def Obligations.TailBitsAreZeroForEverySeed : Prop :=
  ∀ (P : Params) (decMsgLen seed : Nat) (payload : List Byte), payload.length + 2 < decMsgLen →
    let scrb := scramble P (assemble decMsgLen payload) seed
    let out := scrambledMessage P decMsgLen seed payload
    (∀ b, 2 ≤ b → (out.getD (payload.length + 2) 0xFF).getLsbD b = false) ∧
    (∀ b, b < 2 → (out.getD (payload.length + 2) 0).getLsbD b = (scrb.getD (payload.length + 2) 0).getLsbD b) ∧
    ∀ i, i ≠ payload.length + 2 → out[i]? = scrb[i]?

/-- R101: chunk `m` of the channel bits is the interleaving of chunk `m` of the coded buffer into zeros, and the chunks
tile the output. No bit crosses a symbol boundary. -/
def Obligations.EachSymbolIsInterleavedOnItsOwn : Prop :=
  ∀ (P : Params) (row : RateRow) (T : List Entry) (l : PacketLengths) (seed : Nat) (payload : List Byte),
    let nb := row.ncbps / 8
    let enc := P.collab.fecEnc row.scheme l.decMsgLen (scrambledMessage P l.decMsgLen seed payload)
    let out := encodePacket P row T l seed payload
    out.length = l.nsym * nb ∧
    ∀ m, m < l.nsym →
      (out.drop (m * nb)).take nb = interleave T ((enc.drop (m * nb)).take nb) (List.replicate nb 0)

/-- R103: decoding runs the encode steps in reverse: each chunk of the channel bits is deinterleaved into zeros, the FEC
decoder gets the chunks joined, and payload byte `i` is the bit reversal of byte `2 + i` of its answer, scrambled again.
`Uncorrectable` is passed on. -/
def Obligations.DecodingRunsTheStepsInReverse : Prop :=
  ∀ (P : Params) (row : RateRow) (T : List Entry) (l : PacketLengths) (seed length : Nat) (channelBits : List Byte),
    let nb := row.ncbps / 8
    let decoded := decodePacket P row T l seed length channelBits
    ∃ dil : List Byte, dil.length = l.nsym * nb ∧
      (∀ m, m < l.nsym →
        (dil.drop (m * nb)).take nb =
          deinterleave T ((channelBits.drop (m * nb)).take nb) (List.replicate nb 0)) ∧
      (P.collab.fecDec row.scheme l.decMsgLen dil = .uncorrectable → decoded = .uncorrectable) ∧
      ∀ dec, P.collab.fecDec row.scheme l.decMsgLen dil = .ok dec → length + 2 ≤ dec.length →
        ∃ payload, decoded = .ok payload ∧ payload.length = length ∧
          ∀ i, i < length → payload.getD i 0 =
            rev8 (dec.getD (2 + i) 0 ^^^ (P.collab.keystream seed dec.length).getD (2 + i) 0)

/-- R102: `PENC` faults `InvalidRate`, `InexactLength` or `BufferSizeMismatch`, in this order, with `CB_LEN` cleared and
nothing else changed. With exact lengths and `PB_LEN = length` it completes: the slot is ensured, `CB[0:enc_msg_len)`
becomes the encoded packet of `PB[0:length)`, `CB_LEN` and `RESULT` become `enc_msg_len`, and every other byte, slot and
register but the outcome registers stays. -/
def Obligations.PencWritesTheEncodedPacket : Prop :=
  (∀ (rate seed length : Nat) (s : State), 8 ≤ rate → rate ≤ 15 →
    exec (.penc rate seed length) s = .next { (s.withFault 1 rate) with cbLen := 0 }) ∧
  (∀ (rate seed length : Nat) (row : RateRow) (s : State), rateRow block rate = some row →
    (¬ exactFor row length → exec (.penc rate seed length) s =
      .next { (s.withFault 6 (packetLengths row.ndbps row.ncbps length).nsym) with cbLen := 0 }) ∧
    (exactFor row length → s.pbLen.toNat ≠ length →
      exec (.penc rate seed length) s = .next { (s.withFault 2 length) with cbLen := 0 })) ∧
  ∀ (rate seed length : Nat) (row : RateRow) (s : State), rateRow block rate = some row → seed ≤ 127 → length ≤ 4095 →
    exactFor row length → s.pbLen.toNat = length →
    let l := packetLengths row.ndbps row.ncbps length
    decode (BitVec.ofNat 32 (0x50000000 + rate * 2 ^ 24 + seed * 2 ^ 17 + length)) = .ok (.penc rate seed length) ∧
    ∃ t, exec (.penc rate seed length) s = .next t ∧
      (let out := encodePacket block row ((t.slot rate).entries.take row.ncbps) l seed (s.bytes .pb length)
       out.length = l.encMsgLen ∧ ∀ i, i < l.encMsgLen → t.byte .cb i = out.getD i 0) ∧
      (∀ sp i, ¬ (sp = .cb ∧ i < l.encMsgLen) → t.byte sp i = s.byte sp i) ∧
      ((s.slot rate).valid = true → t.slot rate = s.slot rate) ∧
      ((s.slot rate).valid = false → (t.slot rate).valid = true ∧
        ∀ k, k < row.ncbps → (t.slot rate).entries[k]? = some (genEntry row.ncbps row.nbpsc k)) ∧
      (∀ r, r ≠ rate → t.slot r = s.slot r) ∧
      State.SameButBuffers { (s.withDone l.encMsgLen) with cbLen := BitVec.ofNat 32 l.encMsgLen }
        { t with cache := s.cache }

/-- R104: `PDEC` faults `InvalidRate`, `InexactLength` or `BufferSizeMismatch`, in this order, with `PB_LEN` cleared and
nothing else changed. With exact lengths and `CB_LEN = enc_msg_len` it ensures the slot and runs the decoder. On a payload
it completes: `PB[0:length)` becomes the payload, `PB_LEN` and `RESULT` become `length`. On `Uncorrectable` it records
`FecUncorrectable(0)` with `PB_LEN` cleared and no byte changed. Every other byte, slot and register stays. -/
def Obligations.PdecWritesThePayloadOrReportsUncorrectable : Prop :=
  (∀ (rate seed length : Nat) (s : State), 8 ≤ rate → rate ≤ 15 →
    exec (.pdec rate seed length) s = .next { (s.withFault 1 rate) with pbLen := 0 }) ∧
  (∀ (rate seed length : Nat) (row : RateRow) (s : State), rateRow block rate = some row →
    let l := packetLengths row.ndbps row.ncbps length
    (¬ exactFor row length →
      exec (.pdec rate seed length) s = .next { (s.withFault 6 l.nsym) with pbLen := 0 }) ∧
    (exactFor row length → s.cbLen.toNat ≠ l.encMsgLen →
      exec (.pdec rate seed length) s = .next { (s.withFault 2 l.encMsgLen) with pbLen := 0 })) ∧
  ∀ (rate seed length : Nat) (row : RateRow) (s : State), rateRow block rate = some row → seed ≤ 127 → length ≤ 4095 →
    exactFor row length →
    let l := packetLengths row.ndbps row.ncbps length
    s.cbLen.toNat = l.encMsgLen →
    decode (BitVec.ofNat 32 (0x60000000 + rate * 2 ^ 24 + seed * 2 ^ 17 + length)) = .ok (.pdec rate seed length) ∧
    ∃ t, exec (.pdec rate seed length) s = .next t ∧
      ((s.slot rate).valid = true → t.slot rate = s.slot rate) ∧
      ((s.slot rate).valid = false → (t.slot rate).valid = true ∧
        ∀ k, k < row.ncbps → (t.slot rate).entries[k]? = some (genEntry row.ncbps row.nbpsc k)) ∧
      (∀ r, r ≠ rate → t.slot r = s.slot r) ∧
      match decodePacket block row ((t.slot rate).entries.take row.ncbps) l seed length (s.bytes .cb l.encMsgLen) with
      | .ok payload =>
        payload.length = length ∧ (∀ i, i < length → t.byte .pb i = payload.getD i 0) ∧
        (∀ sp i, ¬ (sp = .pb ∧ i < length) → t.byte sp i = s.byte sp i) ∧
        State.SameButBuffers { (s.withDone length) with pbLen := BitVec.ofNat 32 length } { t with cache := s.cache }
      | .uncorrectable =>
        (∀ sp i, t.byte sp i = s.byte sp i) ∧
        State.SameButBuffers { (s.withFault 3 0) with pbLen := 0 } { t with cache := s.cache }

/-- R123 and R127, in every configuration: when the FEC decoder answers `Uncorrectable`, `PDEC` records
`FecUncorrectable(0)`, clears `PB_LEN`, keeps every buffer byte, and leaves its slot ensured and every other slot as it
was. Whether a given `CB` is uncorrectable is the decoder's business (R115), so the statement is about the command in any
configuration; `exec` runs it in the block's own. -/
def Obligations.UncorrectablePacketsAreReportedAndNotWritten : Prop :=
  ∀ (P : Params) (rate seed length : Nat) (row : RateRow) (s : State), rateRow P rate = some row →
    exactFor row length →
    let l := packetLengths row.ndbps row.ncbps length
    s.cbLen.toNat = l.encMsgLen →
    decodePacket P row ((s.ensureTable rate row).table rate row.ncbps) l seed length (s.bytes .cb l.encMsgLen) =
      .uncorrectable →
    let t := pdec P rate seed length s
    t.mem = s.mem ∧ (t.slot rate).valid = true ∧ ((s.slot rate).valid = true → t.slot rate = s.slot rate) ∧
    (∀ r, r ≠ rate → t.slot r = s.slot r) ∧ { t with cache := s.cache } = { (s.withFault 3 0) with pbLen := 0 }

/-- R106, at the machine: whenever `PENC` can run, it completes, and `PDEC` with the same operands, issued in any state
that still holds the channel bits and the length `PENC` left, completes and gives back the payload. Rests on the laws of
the FEC codec and the scrambler only. -/
def Obligations.PdecRecoversWhatPencEncoded : Prop :=
  ∀ (rate seed length : Nat) (row : RateRow) (s : State), rateRow block rate = some row → seed ≤ 127 → length ≤ 4095 →
    exactFor row length → s.pbLen.toNat = length → CacheSound block s →
    ∃ t, exec (.penc rate seed length) s = .next t ∧ t.status = 1 ∧
      ∀ u : State, CacheSound block u → u.cbLen = t.cbLen →
        (∀ i, i < t.cbLen.toNat → u.byte .cb i = t.byte .cb i) →
        ∃ v, exec (.pdec rate seed length) u = .next v ∧ v.status = 1 ∧ v.result.toNat = length ∧
          v.pbLen.toNat = length ∧ ∀ i, i < length → v.byte .pb i = s.byte .pb i

/-- R106, for every configuration: with any well-formed rate table (R8, and the two conditions of log entries 2 and 3) and
any collaborators meeting their laws, decoding the encoded payload gives the payload back, for every rate, seed and length
with exact lengths. -/
def Obligations.DecodingInvertsEncodingInEveryConfiguration : Prop :=
  ∀ (P : Params) (rate seed : Nat) (row : RateRow) (payload : List Byte), P.rates.wf = true →
    rateRow P rate = some row → exactFor row payload.length →
    let l := packetLengths row.ndbps row.ncbps payload.length
    let T := genTable row.ncbps row.nbpsc
    decodePacket P row T l seed payload.length (encodePacket P row T l seed payload) = .ok payload

/-- R101 and R102: the old content of `CB` never enters a packet: `PENC` from two states that differ only in `CB` writes
the same packet. -/
def Obligations.OldChannelBitsNeverEnterAPacket : Prop :=
  ∀ (rate seed length : Nat) (row : RateRow) (s s' : State), rateRow block rate = some row → length ≤ 4095 →
    exactFor row length → s.pbLen.toNat = length → State.SameButBuffers s s' →
    (∀ i, s'.byte .pb i = s.byte .pb i) →
    ∃ t t', exec (.penc rate seed length) s = .next t ∧ exec (.penc rate seed length) s' = .next t' ∧
      ∀ i, i < (packetLengths row.ndbps row.ncbps length).encMsgLen → t'.byte .cb i = t.byte .cb i

/-! ## Faults and whole-machine rules -/

/-- R121: a rate field of 8..15 makes each of the six commands with a rate operand record `InvalidRate(rate)` before
anything else is read, whatever the state; only the output length register of `PENC` and `PDEC` is cleared beside. -/
def Obligations.UnsupportedRatesFaultBeforeAnythingElse : Prop :=
  ∀ (rate seed length : Nat) (s : State), 8 ≤ rate → rate ≤ 15 →
    exec (.gentbl rate) s = .next (s.withFault 1 rate) ∧ exec (.ilv rate) s = .next (s.withFault 1 rate) ∧
    exec (.dilv rate) s = .next (s.withFault 1 rate) ∧ exec (.clen rate length) s = .next (s.withFault 1 rate) ∧
    exec (.penc rate seed length) s = .next { (s.withFault 1 rate) with cbLen := 0 } ∧
    exec (.pdec rate seed length) s = .next { (s.withFault 1 rate) with pbLen := 0 }

/-- R122: a declared length that is not exactly the implied size records `BufferSizeMismatch` with the expected size, and
nothing is read or written. -/
def Obligations.WrongDeclaredLengthsFault : Prop :=
  ∀ (rate seed length : Nat) (row : RateRow) (s : State), rateRow block rate = some row →
    let nb := row.ncbps / 8
    ((s.slot rate).valid = true → s.sibLen.toNat ≠ nb ∨ s.sobLen.toNat ≠ nb →
      exec (.ilv rate) s = .next (s.withFault 2 nb) ∧ exec (.dilv rate) s = .next (s.withFault 2 nb)) ∧
    (exactFor row length → s.pbLen.toNat ≠ length →
      exec (.penc rate seed length) s = .next { (s.withFault 2 length) with cbLen := 0 }) ∧
    (exactFor row length → s.cbLen.toNat ≠ (packetLengths row.ndbps row.ncbps length).encMsgLen →
      exec (.pdec rate seed length) s =
        .next { (s.withFault 2 (packetLengths row.ndbps row.ncbps length).encMsgLen) with pbLen := 0 })

/-- R126: where `nsym * ndbps` is not a multiple of 8, `CLEN`, `PENC` and `PDEC` record `InexactLength(nsym)` whatever the
declared lengths; with the default table (log entry 1) that is rate id 1 with odd `nsym`, and nothing else. -/
def Obligations.InexactLengthsFault : Prop :=
  ∀ (rate seed length : Nat) (row : RateRow) (s : State), rateRow block rate = some row →
    let nsym := (16 + 8 * length + 6 + row.ndbps - 1) / row.ndbps
    (nsym * row.ndbps % 8 ≠ 0 →
      exec (.clen rate length) s = .next (s.withFault 6 nsym) ∧
      exec (.penc rate seed length) s = .next { (s.withFault 6 nsym) with cbLen := 0 } ∧
      exec (.pdec rate seed length) s = .next { (s.withFault 6 nsym) with pbLen := 0 }) ∧
    (nsym * row.ndbps % 8 ≠ 0 ↔ rate = 1 ∧ nsym % 2 = 1)

/-- R17, R119 and R133: every command, in every state, ends in a next state, with exactly one of `DONE` and `ERR` set; one
that completes records no fault, one that faults records a code of R120 and no result. -/
def Obligations.EveryCommandCompletesOrFaults : Prop :=
  ∀ (i : Instr) (s : State), ∃ t, exec i s = .next t ∧
    ((t.done = true ∧ t.err = false ∧ t.status = 1 ∧ t.errCode = 0 ∧ t.errInfo = 0) ∨
     (t.done = false ∧ t.err = true ∧ t.status = 2 ∧ 1 ≤ t.errCode.toNat ∧ t.errCode.toNat ≤ 6 ∧ t.result = 0))

/-- R120: which command can raise which fault, in which case, and what each records. No command but an undecodable word
raises `IllegalCommand`, and `BREV` never faults. -/
def Obligations.FaultsComeOnlyFromTheCommandsOfTheTable : Prop :=
  (∀ (w : Word) (s : State) (rest : List HostEvent), (∀ i, decode w ≠ .ok i) →
    ∃ t, step { s with bus := .write (.reg .cmd) w :: rest } = .next t ∧ t.errCode = 4 ∧ t.errInfo = w) ∧
  ∀ (i : Instr) (s t : State), exec i s = .next t →
    let badRate (rate : Nat) : Prop := t.errCode = 1 ∧ 8 ≤ rate ∧ t.errInfo = BitVec.ofNat 32 rate
    let badTable (rate : Nat) : Prop := t.errCode = 5 ∧ (s.slot rate).valid = false ∧ t.errInfo = BitVec.ofNat 32 rate
    let badSize (len : Word) (n : Nat) : Prop := t.errCode = 2 ∧ len.toNat ≠ n ∧ t.errInfo = BitVec.ofNat 32 n
    let inexact (row : RateRow) (length : Nat) : Prop := t.errCode = 6 ∧ ¬ exactFor row length ∧
      t.errInfo = BitVec.ofNat 32 (packetLengths row.ndbps row.ncbps length).nsym
    let fine : Prop := t.errCode = 0 ∧ t.errInfo = 0
    match i with
    | .brev _ => fine
    | .gentbl rate => fine ∨ badRate rate
    | .ilv rate | .dilv rate =>
      fine ∨ badRate rate ∨ badTable rate ∨
      ∃ row, rateRow block rate = some row ∧ (badSize s.sibLen (row.ncbps / 8) ∨ badSize s.sobLen (row.ncbps / 8))
    | .clen rate length => fine ∨ badRate rate ∨ ∃ row, rateRow block rate = some row ∧ inexact row length
    | .penc rate _ length =>
      fine ∨ badRate rate ∨
      ∃ row, rateRow block rate = some row ∧ (inexact row length ∨ badSize s.pbLen length)
    | .pdec rate _ length =>
      fine ∨ badRate rate ∨ (t.errCode = 3 ∧ t.errInfo = 0) ∨
      ∃ row, rateRow block rate = some row ∧
        (inexact row length ∨ badSize s.cbLen (packetLengths row.ndbps row.ncbps length).encMsgLen)

/-- R127: what a command that faults leaves: the fault record, `RESULT` 0, the output length register of `PENC` or `PDEC`
cleared, and everything else as before the command, but for the slot a `PDEC` ended by `FecUncorrectable` has ensured.
A word that decodes to no command clears no length register. -/
def Obligations.FaultingCommandsChangeNothingElse : Prop :=
  (∀ (w : Word) (s : State) (rest : List HostEvent), (∀ i, decode w ≠ .ok i) →
    step { s with bus := .write (.reg .cmd) w :: rest } = .next (State.withFault { s with bus := rest } 4 w.toNat)) ∧
  ∀ (i : Instr) (s t : State), exec i s = .next t → t.status = 2 →
    (∃ f : CommandFault, t.errCode = f.code ∧ t.errInfo = f.info) ∧ t.result = 0 ∧
    t.cbLen = (match i with | .penc _ _ _ => 0 | _ => s.cbLen) ∧
    t.pbLen = (match i with | .pdec _ _ _ => 0 | _ => s.pbLen) ∧
    t.sibLen = s.sibLen ∧ t.sobLen = s.sobLen ∧ t.mem = s.mem ∧
    (t.errCode ≠ 3 → t.cache = s.cache) ∧
    (t.errCode = 3 → ∃ rate seed length, i = .pdec rate seed length ∧ (t.slot rate).valid = true ∧
      ((s.slot rate).valid = true → t.slot rate = s.slot rate) ∧ ∀ r, r ≠ rate → t.slot r = s.slot r) ∧
    t.bus = s.bus ∧ t.hostData = s.hostData ∧ t.epoch = s.epoch ∧ t.draws = s.draws

/-- R130: the fault record is not sticky: no command's effect depends on the outcome registers an earlier command left. -/
def Obligations.NoCommandReadsTheOutcomeRegisters : Prop :=
  ∀ (i : Instr) (s : State) (a b c d : Word),
    exec i { s with status := a, errCode := b, errInfo := c, result := d } = exec i s

/-- R42 and R144, over all commands: repeating a command at once gives the same state, the same completion or the same
fault again. `PENC` and `PDEC` keep their input length register and `ILV` and `DILV` OR the same bits, so none needs the
host in between. The buffer memory is in its canonical form, which every step keeps (`EveryStepKeepsTheInvariant`). -/
def Obligations.RepeatingACommandChangesNothingMore : Prop :=
  ∀ (i : Instr) (s t : State), s.mem.wf = true → exec i s = .next t → exec i t = .next t

/-- R32 and R149, over all commands: no command writes `SIB`, `SIB_LEN` or `SOB_LEN`; only `ILV` and `DILV` write `SOB`;
only `PENC` writes `CB` and `CB_LEN`; only `PDEC` writes `PB` and `PB_LEN`; only `GENTBL`, `PENC` and `PDEC` write the
cache, and there only their own rate's slot. -/
def Obligations.CommandsWriteOnlyWhatTheirRuleNames : Prop :=
  ∀ (i : Instr) (s t : State), exec i s = .next t →
    (∀ j, t.byte .sib j = s.byte .sib j) ∧ t.sibLen = s.sibLen ∧ t.sobLen = s.sobLen ∧
    (match i with | .ilv _ | .dilv _ => True | _ => ∀ j, t.byte .sob j = s.byte .sob j) ∧
    (match i with | .penc _ _ _ => True | _ => t.cbLen = s.cbLen ∧ ∀ j, t.byte .cb j = s.byte .cb j) ∧
    (match i with | .pdec _ _ _ => True | _ => t.pbLen = s.pbLen ∧ ∀ j, t.byte .pb j = s.byte .pb j) ∧
    (match i with
      | .gentbl rate | .penc rate _ _ | .pdec rate _ _ => ∀ r, r ≠ rate → t.slot r = s.slot r
      | _ => t.cache = s.cache) ∧
    t.bus = s.bus ∧ t.hostData = s.hostData ∧ t.epoch = s.epoch ∧ t.draws = s.draws

/-! ## Invariants -/

/-- R17, R24, R30: the state right after reset is a good state. -/
def Obligations.ResetStateMeetsTheInvariant : Prop := State.reset.Inv

/-- R17 to R20, R24, R26: every step from a good state, whatever the host does, reaches a good state: the outcome registers
stay legal, every valid slot holds the generated table, the buffer memory keeps its canonical form. -/
def Obligations.EveryStepKeepsTheInvariant : Prop :=
  ∀ s t : State, s.Inv → step s = .next t → t.Inv

/-- The same of whole runs: after any number of steps under any list of host accesses and resets, from reset, the state is
good. -/
def Obligations.EveryHostScheduleKeepsTheInvariant : Prop :=
  ∀ (schedule : List HostEvent) (n : Nat) (t : State),
    core.run n { State.reset with bus := schedule } = .next t → t.Inv

/-! ## The test fixtures -/

/-- R118: the fixtures' keystream, encoder and decoder are the spec's formulas, for every seed and every input; the
decoder answers `Uncorrectable` exactly where a pair is no byte with its complement. The codec is stated for `FEC_R1_2`,
the one scheme R118 defines it for. That they meet the laws of R110 and R115 stands in their type, and R111 follows. -/
def Obligations.FixturesFollowTheirFormulas : Prop :=
  (∀ seed n : Nat, (fixtures.collab.keystream seed n).length = n ∧
    ∀ i, i < n → ((fixtures.collab.keystream seed n).getD i 0).toNat = (seed + i) % 256) ∧
  (∀ (n : Nat) (x : List Byte), x.length = n →
    let y := fixtures.collab.fecEnc fecR1_2 n x
    y.length = 2 * n ∧ ∀ i, i < n → y.getD (2 * i) 0 = x.getD i 0 ∧ y.getD (2 * i + 1) 0 = x.getD i 0 ^^^ 0xFF) ∧
  ∀ (n : Nat) (y : List Byte), y.length = 2 * n →
    ((∀ i, i < n → y.getD (2 * i + 1) 0 = y.getD (2 * i) 0 ^^^ 0xFF) →
      ∃ z, fixtures.collab.fecDec fecR1_2 n y = .ok z ∧ z.length = n ∧ ∀ i, i < n → z.getD i 0 = y.getD (2 * i) 0) ∧
    ((∃ i, i < n ∧ y.getD (2 * i + 1) 0 ≠ y.getD (2 * i) 0 ^^^ 0xFF) →
      fixtures.collab.fecDec fecR1_2 n y = .uncorrectable)
end

