-- ==== Sys2Proof/Laws/State.lean ====
section
/-! SUPPORT. One lemma per field per update: what each shared operation leaves in each field of the state. -/

namespace Sys2Proof.Machine

/-! ## `setResult` -/

@[simp] theorem State.setResult_status (s : State) (n : Nat) : (s.setResult n).status = s.status := rfl

@[simp] theorem State.setResult_errCode (s : State) (n : Nat) : (s.setResult n).errCode = s.errCode := rfl

@[simp] theorem State.setResult_errInfo (s : State) (n : Nat) : (s.setResult n).errInfo = s.errInfo := rfl

@[simp] theorem State.setResult_result (s : State) (n : Nat) : (s.setResult n).result = BitVec.ofNat 32 n := rfl

@[simp] theorem State.setResult_pbLen (s : State) (n : Nat) : (s.setResult n).pbLen = s.pbLen := rfl

@[simp] theorem State.setResult_cbLen (s : State) (n : Nat) : (s.setResult n).cbLen = s.cbLen := rfl

@[simp] theorem State.setResult_sibLen (s : State) (n : Nat) : (s.setResult n).sibLen = s.sibLen := rfl

@[simp] theorem State.setResult_sobLen (s : State) (n : Nat) : (s.setResult n).sobLen = s.sobLen := rfl

@[simp] theorem State.setResult_cache (s : State) (n : Nat) : (s.setResult n).cache = s.cache := rfl

@[simp] theorem State.setResult_mem (s : State) (n : Nat) : (s.setResult n).mem = s.mem := rfl

@[simp] theorem State.setResult_bus (s : State) (n : Nat) : (s.setResult n).bus = s.bus := rfl

@[simp] theorem State.setResult_hostData (s : State) (n : Nat) : (s.setResult n).hostData = s.hostData := rfl

@[simp] theorem State.setResult_epoch (s : State) (n : Nat) : (s.setResult n).epoch = s.epoch := rfl

@[simp] theorem State.setResult_draws (s : State) (n : Nat) : (s.setResult n).draws = s.draws := rfl

/-! ## `complete` -/

@[simp] theorem complete_status (s : State) : (complete s).status = 1 := rfl

@[simp] theorem complete_errCode (s : State) : (complete s).errCode = 0 := rfl

@[simp] theorem complete_errInfo (s : State) : (complete s).errInfo = 0 := rfl

@[simp] theorem complete_result (s : State) : (complete s).result = s.result := rfl

@[simp] theorem complete_pbLen (s : State) : (complete s).pbLen = s.pbLen := rfl

@[simp] theorem complete_cbLen (s : State) : (complete s).cbLen = s.cbLen := rfl

@[simp] theorem complete_sibLen (s : State) : (complete s).sibLen = s.sibLen := rfl

@[simp] theorem complete_sobLen (s : State) : (complete s).sobLen = s.sobLen := rfl

@[simp] theorem complete_cache (s : State) : (complete s).cache = s.cache := rfl

@[simp] theorem complete_mem (s : State) : (complete s).mem = s.mem := rfl

@[simp] theorem complete_bus (s : State) : (complete s).bus = s.bus := rfl

@[simp] theorem complete_hostData (s : State) : (complete s).hostData = s.hostData := rfl

@[simp] theorem complete_epoch (s : State) : (complete s).epoch = s.epoch := rfl

@[simp] theorem complete_draws (s : State) : (complete s).draws = s.draws := rfl

/-! ## `setSlot` -/

@[simp] theorem State.setSlot_status (s : State) (r : Nat) (sl : Slot) : (s.setSlot r sl).status = s.status := rfl

@[simp] theorem State.setSlot_errCode (s : State) (r : Nat) (sl : Slot) : (s.setSlot r sl).errCode = s.errCode := rfl

@[simp] theorem State.setSlot_errInfo (s : State) (r : Nat) (sl : Slot) : (s.setSlot r sl).errInfo = s.errInfo := rfl

@[simp] theorem State.setSlot_result (s : State) (r : Nat) (sl : Slot) : (s.setSlot r sl).result = s.result := rfl

@[simp] theorem State.setSlot_pbLen (s : State) (r : Nat) (sl : Slot) : (s.setSlot r sl).pbLen = s.pbLen := rfl

@[simp] theorem State.setSlot_cbLen (s : State) (r : Nat) (sl : Slot) : (s.setSlot r sl).cbLen = s.cbLen := rfl

@[simp] theorem State.setSlot_sibLen (s : State) (r : Nat) (sl : Slot) : (s.setSlot r sl).sibLen = s.sibLen := rfl

@[simp] theorem State.setSlot_sobLen (s : State) (r : Nat) (sl : Slot) : (s.setSlot r sl).sobLen = s.sobLen := rfl

@[simp] theorem State.setSlot_cache (s : State) (r : Nat) (sl : Slot) : (s.setSlot r sl).cache = s.cache.setIfInBounds r sl := rfl

@[simp] theorem State.setSlot_mem (s : State) (r : Nat) (sl : Slot) : (s.setSlot r sl).mem = s.mem := rfl

@[simp] theorem State.setSlot_bus (s : State) (r : Nat) (sl : Slot) : (s.setSlot r sl).bus = s.bus := rfl

@[simp] theorem State.setSlot_hostData (s : State) (r : Nat) (sl : Slot) : (s.setSlot r sl).hostData = s.hostData := rfl

@[simp] theorem State.setSlot_epoch (s : State) (r : Nat) (sl : Slot) : (s.setSlot r sl).epoch = s.epoch := rfl

@[simp] theorem State.setSlot_draws (s : State) (r : Nat) (sl : Slot) : (s.setSlot r sl).draws = s.draws := rfl

/-! ## `fillSlot` and `ensureTable` -/

@[simp] theorem State.fillSlot_status (s : State) (r : Nat) (row : RateRow) : (s.fillSlot r row).status = s.status := rfl

@[simp] theorem State.fillSlot_errCode (s : State) (r : Nat) (row : RateRow) : (s.fillSlot r row).errCode = s.errCode := rfl

@[simp] theorem State.fillSlot_errInfo (s : State) (r : Nat) (row : RateRow) : (s.fillSlot r row).errInfo = s.errInfo := rfl

@[simp] theorem State.fillSlot_result (s : State) (r : Nat) (row : RateRow) : (s.fillSlot r row).result = s.result := rfl

@[simp] theorem State.fillSlot_pbLen (s : State) (r : Nat) (row : RateRow) : (s.fillSlot r row).pbLen = s.pbLen := rfl

@[simp] theorem State.fillSlot_cbLen (s : State) (r : Nat) (row : RateRow) : (s.fillSlot r row).cbLen = s.cbLen := rfl

@[simp] theorem State.fillSlot_sibLen (s : State) (r : Nat) (row : RateRow) : (s.fillSlot r row).sibLen = s.sibLen := rfl

@[simp] theorem State.fillSlot_sobLen (s : State) (r : Nat) (row : RateRow) : (s.fillSlot r row).sobLen = s.sobLen := rfl

@[simp] theorem State.fillSlot_mem (s : State) (r : Nat) (row : RateRow) : (s.fillSlot r row).mem = s.mem := rfl

@[simp] theorem State.fillSlot_bus (s : State) (r : Nat) (row : RateRow) : (s.fillSlot r row).bus = s.bus := rfl

@[simp] theorem State.fillSlot_hostData (s : State) (r : Nat) (row : RateRow) : (s.fillSlot r row).hostData = s.hostData := rfl

@[simp] theorem State.fillSlot_epoch (s : State) (r : Nat) (row : RateRow) : (s.fillSlot r row).epoch = s.epoch := rfl

@[simp] theorem State.fillSlot_draws (s : State) (r : Nat) (row : RateRow) : (s.fillSlot r row).draws = s.draws := rfl

@[simp] theorem State.ensureTable_status (s : State) (r : Nat) (row : RateRow) : (s.ensureTable r row).status = s.status := by
  unfold State.ensureTable; split <;> rfl

@[simp] theorem State.ensureTable_errCode (s : State) (r : Nat) (row : RateRow) : (s.ensureTable r row).errCode = s.errCode := by
  unfold State.ensureTable; split <;> rfl

@[simp] theorem State.ensureTable_errInfo (s : State) (r : Nat) (row : RateRow) : (s.ensureTable r row).errInfo = s.errInfo := by
  unfold State.ensureTable; split <;> rfl

@[simp] theorem State.ensureTable_result (s : State) (r : Nat) (row : RateRow) : (s.ensureTable r row).result = s.result := by
  unfold State.ensureTable; split <;> rfl

@[simp] theorem State.ensureTable_pbLen (s : State) (r : Nat) (row : RateRow) : (s.ensureTable r row).pbLen = s.pbLen := by
  unfold State.ensureTable; split <;> rfl

@[simp] theorem State.ensureTable_cbLen (s : State) (r : Nat) (row : RateRow) : (s.ensureTable r row).cbLen = s.cbLen := by
  unfold State.ensureTable; split <;> rfl

@[simp] theorem State.ensureTable_sibLen (s : State) (r : Nat) (row : RateRow) : (s.ensureTable r row).sibLen = s.sibLen := by
  unfold State.ensureTable; split <;> rfl

@[simp] theorem State.ensureTable_sobLen (s : State) (r : Nat) (row : RateRow) : (s.ensureTable r row).sobLen = s.sobLen := by
  unfold State.ensureTable; split <;> rfl

@[simp] theorem State.ensureTable_mem (s : State) (r : Nat) (row : RateRow) : (s.ensureTable r row).mem = s.mem := by
  unfold State.ensureTable; split <;> rfl

@[simp] theorem State.ensureTable_bus (s : State) (r : Nat) (row : RateRow) : (s.ensureTable r row).bus = s.bus := by
  unfold State.ensureTable; split <;> rfl

@[simp] theorem State.ensureTable_hostData (s : State) (r : Nat) (row : RateRow) : (s.ensureTable r row).hostData = s.hostData := by
  unfold State.ensureTable; split <;> rfl

@[simp] theorem State.ensureTable_epoch (s : State) (r : Nat) (row : RateRow) : (s.ensureTable r row).epoch = s.epoch := by
  unfold State.ensureTable; split <;> rfl

@[simp] theorem State.ensureTable_draws (s : State) (r : Nat) (row : RateRow) : (s.ensureTable r row).draws = s.draws := by
  unfold State.ensureTable; split <;> rfl

/-! ## `setLen` -/

@[simp] theorem State.setLen_status (s : State) (sp : Space) (v : Word) : (s.setLen sp v).status = s.status := by cases sp <;> rfl

@[simp] theorem State.setLen_errCode (s : State) (sp : Space) (v : Word) : (s.setLen sp v).errCode = s.errCode := by cases sp <;> rfl

@[simp] theorem State.setLen_errInfo (s : State) (sp : Space) (v : Word) : (s.setLen sp v).errInfo = s.errInfo := by cases sp <;> rfl

@[simp] theorem State.setLen_result (s : State) (sp : Space) (v : Word) : (s.setLen sp v).result = s.result := by cases sp <;> rfl

@[simp] theorem State.setLen_cache (s : State) (sp : Space) (v : Word) : (s.setLen sp v).cache = s.cache := by cases sp <;> rfl

@[simp] theorem State.setLen_mem (s : State) (sp : Space) (v : Word) : (s.setLen sp v).mem = s.mem := by cases sp <;> rfl

@[simp] theorem State.setLen_bus (s : State) (sp : Space) (v : Word) : (s.setLen sp v).bus = s.bus := by cases sp <;> rfl

@[simp] theorem State.setLen_hostData (s : State) (sp : Space) (v : Word) : (s.setLen sp v).hostData = s.hostData := by cases sp <;> rfl

@[simp] theorem State.setLen_epoch (s : State) (sp : Space) (v : Word) : (s.setLen sp v).epoch = s.epoch := by cases sp <;> rfl

@[simp] theorem State.setLen_draws (s : State) (sp : Space) (v : Word) : (s.setLen sp v).draws = s.draws := by cases sp <;> rfl

@[simp] theorem State.setLen_pbLen (s : State) (sp : Space) (v : Word) : (s.setLen sp v).pbLen = if sp = .pb then v else s.pbLen := by
  cases sp <;> rfl

@[simp] theorem State.setLen_cbLen (s : State) (sp : Space) (v : Word) : (s.setLen sp v).cbLen = if sp = .cb then v else s.cbLen := by
  cases sp <;> rfl

@[simp] theorem State.setLen_sibLen (s : State) (sp : Space) (v : Word) : (s.setLen sp v).sibLen = if sp = .sib then v else s.sibLen := by
  cases sp <;> rfl

@[simp] theorem State.setLen_sobLen (s : State) (sp : Space) (v : Word) : (s.setLen sp v).sobLen = if sp = .sob then v else s.sobLen := by
  cases sp <;> rfl

@[simp] theorem State.len_setLen (s : State) (sp sp' : Space) (v : Word) :
    (s.setLen sp v).len sp' = if sp = sp' then v else s.len sp' := by
  cases sp <;> cases sp' <;> rfl

/-! ## `raiseFault` -/

@[simp] theorem raiseFault_status (f : CommandFault) (c : Option Space) (s : State) : (raiseFault f c s).status = 2 := by
  cases c <;> simp [raiseFault, statusErr]

@[simp] theorem raiseFault_errCode (f : CommandFault) (c : Option Space) (s : State) : (raiseFault f c s).errCode = f.code := by
  cases c <;> simp [raiseFault, statusErr]

@[simp] theorem raiseFault_errInfo (f : CommandFault) (c : Option Space) (s : State) : (raiseFault f c s).errInfo = f.info := by
  cases c <;> simp [raiseFault, statusErr]

@[simp] theorem raiseFault_result (f : CommandFault) (c : Option Space) (s : State) : (raiseFault f c s).result = 0 := by
  cases c <;> simp [raiseFault, statusErr]

@[simp] theorem raiseFault_cache (f : CommandFault) (c : Option Space) (s : State) : (raiseFault f c s).cache = s.cache := by
  cases c <;> simp [raiseFault, statusErr]

@[simp] theorem raiseFault_mem (f : CommandFault) (c : Option Space) (s : State) : (raiseFault f c s).mem = s.mem := by
  cases c <;> simp [raiseFault, statusErr]

@[simp] theorem raiseFault_bus (f : CommandFault) (c : Option Space) (s : State) : (raiseFault f c s).bus = s.bus := by
  cases c <;> simp [raiseFault, statusErr]

@[simp] theorem raiseFault_hostData (f : CommandFault) (c : Option Space) (s : State) : (raiseFault f c s).hostData = s.hostData := by
  cases c <;> simp [raiseFault, statusErr]

@[simp] theorem raiseFault_epoch (f : CommandFault) (c : Option Space) (s : State) : (raiseFault f c s).epoch = s.epoch := by
  cases c <;> simp [raiseFault, statusErr]

@[simp] theorem raiseFault_draws (f : CommandFault) (c : Option Space) (s : State) : (raiseFault f c s).draws = s.draws := by
  cases c <;> simp [raiseFault, statusErr]

@[simp] theorem raiseFault_len (f : CommandFault) (c : Option Space) (s : State) (sp : Space) :
    (raiseFault f c s).len sp = if c = some sp then 0 else s.len sp := by
  rcases c with _ | c <;> cases sp <;> (try cases c) <;> rfl

/-! ## `setByte` and `setBytes` -/

@[simp] theorem State.setByte_status (s : State) (sp : Space) (i : Nat) (v : Byte) : (s.setByte sp i v).status = s.status := by
  unfold State.setByte; split <;> rfl

@[simp] theorem State.setByte_errCode (s : State) (sp : Space) (i : Nat) (v : Byte) : (s.setByte sp i v).errCode = s.errCode := by
  unfold State.setByte; split <;> rfl

@[simp] theorem State.setByte_errInfo (s : State) (sp : Space) (i : Nat) (v : Byte) : (s.setByte sp i v).errInfo = s.errInfo := by
  unfold State.setByte; split <;> rfl

@[simp] theorem State.setByte_result (s : State) (sp : Space) (i : Nat) (v : Byte) : (s.setByte sp i v).result = s.result := by
  unfold State.setByte; split <;> rfl

@[simp] theorem State.setByte_pbLen (s : State) (sp : Space) (i : Nat) (v : Byte) : (s.setByte sp i v).pbLen = s.pbLen := by
  unfold State.setByte; split <;> rfl

@[simp] theorem State.setByte_cbLen (s : State) (sp : Space) (i : Nat) (v : Byte) : (s.setByte sp i v).cbLen = s.cbLen := by
  unfold State.setByte; split <;> rfl

@[simp] theorem State.setByte_sibLen (s : State) (sp : Space) (i : Nat) (v : Byte) : (s.setByte sp i v).sibLen = s.sibLen := by
  unfold State.setByte; split <;> rfl

@[simp] theorem State.setByte_sobLen (s : State) (sp : Space) (i : Nat) (v : Byte) : (s.setByte sp i v).sobLen = s.sobLen := by
  unfold State.setByte; split <;> rfl

@[simp] theorem State.setByte_cache (s : State) (sp : Space) (i : Nat) (v : Byte) : (s.setByte sp i v).cache = s.cache := by
  unfold State.setByte; split <;> rfl

@[simp] theorem State.setByte_bus (s : State) (sp : Space) (i : Nat) (v : Byte) : (s.setByte sp i v).bus = s.bus := by
  unfold State.setByte; split <;> rfl

@[simp] theorem State.setByte_hostData (s : State) (sp : Space) (i : Nat) (v : Byte) : (s.setByte sp i v).hostData = s.hostData := by
  unfold State.setByte; split <;> rfl

@[simp] theorem State.setByte_epoch (s : State) (sp : Space) (i : Nat) (v : Byte) : (s.setByte sp i v).epoch = s.epoch := by
  unfold State.setByte; split <;> rfl

@[simp] theorem State.setByte_draws (s : State) (sp : Space) (i : Nat) (v : Byte) : (s.setByte sp i v).draws = s.draws := by
  unfold State.setByte; split <;> rfl

@[simp] theorem State.setBytesFrom_status (sp : Space) (i : Nat) (bs : List Byte) (s : State) :
    (State.setBytesFrom sp i bs s).status = s.status := by
  induction bs generalizing i s with
  | nil => rfl
  | cons v rest ih => simp [State.setBytesFrom, ih]

@[simp] theorem State.setBytesFrom_errCode (sp : Space) (i : Nat) (bs : List Byte) (s : State) :
    (State.setBytesFrom sp i bs s).errCode = s.errCode := by
  induction bs generalizing i s with
  | nil => rfl
  | cons v rest ih => simp [State.setBytesFrom, ih]

@[simp] theorem State.setBytesFrom_errInfo (sp : Space) (i : Nat) (bs : List Byte) (s : State) :
    (State.setBytesFrom sp i bs s).errInfo = s.errInfo := by
  induction bs generalizing i s with
  | nil => rfl
  | cons v rest ih => simp [State.setBytesFrom, ih]

@[simp] theorem State.setBytesFrom_result (sp : Space) (i : Nat) (bs : List Byte) (s : State) :
    (State.setBytesFrom sp i bs s).result = s.result := by
  induction bs generalizing i s with
  | nil => rfl
  | cons v rest ih => simp [State.setBytesFrom, ih]

@[simp] theorem State.setBytesFrom_pbLen (sp : Space) (i : Nat) (bs : List Byte) (s : State) :
    (State.setBytesFrom sp i bs s).pbLen = s.pbLen := by
  induction bs generalizing i s with
  | nil => rfl
  | cons v rest ih => simp [State.setBytesFrom, ih]

@[simp] theorem State.setBytesFrom_cbLen (sp : Space) (i : Nat) (bs : List Byte) (s : State) :
    (State.setBytesFrom sp i bs s).cbLen = s.cbLen := by
  induction bs generalizing i s with
  | nil => rfl
  | cons v rest ih => simp [State.setBytesFrom, ih]

@[simp] theorem State.setBytesFrom_sibLen (sp : Space) (i : Nat) (bs : List Byte) (s : State) :
    (State.setBytesFrom sp i bs s).sibLen = s.sibLen := by
  induction bs generalizing i s with
  | nil => rfl
  | cons v rest ih => simp [State.setBytesFrom, ih]

@[simp] theorem State.setBytesFrom_sobLen (sp : Space) (i : Nat) (bs : List Byte) (s : State) :
    (State.setBytesFrom sp i bs s).sobLen = s.sobLen := by
  induction bs generalizing i s with
  | nil => rfl
  | cons v rest ih => simp [State.setBytesFrom, ih]

@[simp] theorem State.setBytesFrom_cache (sp : Space) (i : Nat) (bs : List Byte) (s : State) :
    (State.setBytesFrom sp i bs s).cache = s.cache := by
  induction bs generalizing i s with
  | nil => rfl
  | cons v rest ih => simp [State.setBytesFrom, ih]

@[simp] theorem State.setBytesFrom_bus (sp : Space) (i : Nat) (bs : List Byte) (s : State) :
    (State.setBytesFrom sp i bs s).bus = s.bus := by
  induction bs generalizing i s with
  | nil => rfl
  | cons v rest ih => simp [State.setBytesFrom, ih]

@[simp] theorem State.setBytesFrom_hostData (sp : Space) (i : Nat) (bs : List Byte) (s : State) :
    (State.setBytesFrom sp i bs s).hostData = s.hostData := by
  induction bs generalizing i s with
  | nil => rfl
  | cons v rest ih => simp [State.setBytesFrom, ih]

@[simp] theorem State.setBytesFrom_epoch (sp : Space) (i : Nat) (bs : List Byte) (s : State) :
    (State.setBytesFrom sp i bs s).epoch = s.epoch := by
  induction bs generalizing i s with
  | nil => rfl
  | cons v rest ih => simp [State.setBytesFrom, ih]

@[simp] theorem State.setBytesFrom_draws (sp : Space) (i : Nat) (bs : List Byte) (s : State) :
    (State.setBytesFrom sp i bs s).draws = s.draws := by
  induction bs generalizing i s with
  | nil => rfl
  | cons v rest ih => simp [State.setBytesFrom, ih]

@[simp] theorem State.setBytes_status (s : State) (sp : Space) (bs : List Byte) : (s.setBytes sp bs).status = s.status := by simp [State.setBytes]

@[simp] theorem State.setBytes_errCode (s : State) (sp : Space) (bs : List Byte) : (s.setBytes sp bs).errCode = s.errCode := by simp [State.setBytes]

@[simp] theorem State.setBytes_errInfo (s : State) (sp : Space) (bs : List Byte) : (s.setBytes sp bs).errInfo = s.errInfo := by simp [State.setBytes]

@[simp] theorem State.setBytes_result (s : State) (sp : Space) (bs : List Byte) : (s.setBytes sp bs).result = s.result := by simp [State.setBytes]

@[simp] theorem State.setBytes_pbLen (s : State) (sp : Space) (bs : List Byte) : (s.setBytes sp bs).pbLen = s.pbLen := by simp [State.setBytes]

@[simp] theorem State.setBytes_cbLen (s : State) (sp : Space) (bs : List Byte) : (s.setBytes sp bs).cbLen = s.cbLen := by simp [State.setBytes]

@[simp] theorem State.setBytes_sibLen (s : State) (sp : Space) (bs : List Byte) : (s.setBytes sp bs).sibLen = s.sibLen := by simp [State.setBytes]

@[simp] theorem State.setBytes_sobLen (s : State) (sp : Space) (bs : List Byte) : (s.setBytes sp bs).sobLen = s.sobLen := by simp [State.setBytes]

@[simp] theorem State.setBytes_cache (s : State) (sp : Space) (bs : List Byte) : (s.setBytes sp bs).cache = s.cache := by simp [State.setBytes]

@[simp] theorem State.setBytes_bus (s : State) (sp : Space) (bs : List Byte) : (s.setBytes sp bs).bus = s.bus := by simp [State.setBytes]

@[simp] theorem State.setBytes_hostData (s : State) (sp : Space) (bs : List Byte) : (s.setBytes sp bs).hostData = s.hostData := by simp [State.setBytes]

@[simp] theorem State.setBytes_epoch (s : State) (sp : Space) (bs : List Byte) : (s.setBytes sp bs).epoch = s.epoch := by simp [State.setBytes]

@[simp] theorem State.setBytes_draws (s : State) (sp : Space) (bs : List Byte) : (s.setBytes sp bs).draws = s.draws := by simp [State.setBytes]

end Sys2Proof.Machine
end

