-- ==== Sys2Proof/Laws/Memory.lean ====
section
/-! SUPPORT. The buffer memory: read after write, what a write leaves alone, and that every operation keeps the
canonical form. -/

namespace Sys2Proof.Machine

/-! ## Cells -/

@[simp] theorem findCell_putCell_same (off : Nat) (v : Byte) (cells : List Host.Cell) :
    findCell off (putCell off v cells) = some v := by
  induction cells with
  | nil => simp [putCell, findCell]
  | cons c rest ih =>
    obtain ⟨a, w⟩ := c
    simp only [putCell]
    split_ifs with h1 h2
    · simp [findCell]
    · simp [findCell]
    · simp [findCell, Ne.symm h2, ih]

theorem findCell_putCell_other {off other : Nat} (h : off ≠ other) (v : Byte) (cells : List Host.Cell) :
    findCell other (putCell off v cells) = findCell other cells := by
  induction cells with
  | nil => simp [putCell, findCell, h]
  | cons c rest ih =>
    obtain ⟨a, w⟩ := c
    simp only [putCell]
    split_ifs with h1 h2
    · simp [findCell, h]
    · subst h2; simp [findCell, h]
    · simp [findCell, ih]

/-- Writes to different offsets commute with the order, so the list after them is the same: the form is canonical. -/
theorem putCell_putCell_same (off : Nat) (v w : Byte) (cells : List Host.Cell) :
    putCell off w (putCell off v cells) = putCell off w cells := by
  induction cells with
  | nil => simp [putCell]
  | cons c rest ih =>
    obtain ⟨a, x⟩ := c
    simp only [putCell]
    split_ifs with h1 h2
    · simp [putCell]
    · simp [putCell]
    · simp [putCell, h1, h2, ih]

/-- Putting a cell behind a smaller head keeps the list rising. -/
theorem risingCells_cons_putCell {a off : Nat} (w v : Byte) (cells : List Host.Cell) (ha : a < off)
    (h : risingCells ((a, w) :: cells) = true) : risingCells ((a, w) :: putCell off v cells) = true := by
  induction cells generalizing a w with
  | nil => simp [putCell, risingCells, ha]
  | cons c rest ih =>
    obtain ⟨b, x⟩ := c
    simp only [risingCells, Bool.and_eq_true, decide_eq_true_eq] at h
    simp only [putCell]
    split_ifs with h1 h2
    · simp [risingCells, ha, h1, h.2]
    · subst h2
      cases rest with
      | nil => simp [risingCells, ha]
      | cons d rest =>
        obtain ⟨d, y⟩ := d
        simpa [risingCells, ha] using h.2
    · have := ih (a := b) (w := x) (by omega) h.2
      simp [risingCells, h.1, this]

theorem risingCells_putCell (off : Nat) (v : Byte) (cells : List Host.Cell) (h : risingCells cells = true) :
    risingCells (putCell off v cells) = true := by
  cases cells with
  | nil => simp [putCell, risingCells]
  | cons c rest =>
    obtain ⟨b, x⟩ := c
    simp only [putCell]
    split_ifs with h1 h2
    · simp [risingCells, h1, h]
    · subst h2
      cases rest with
      | nil => simp [risingCells]
      | cons d rest =>
        obtain ⟨d, y⟩ := d
        simpa [risingCells] using h
    · exact risingCells_cons_putCell _ _ _ (by omega) h

theorem all_putCell {p : Nat → Bool} (off : Nat) (v : Byte) (cells : List Host.Cell) (hoff : p off = true)
    (h : (cells.all fun c => p c.1) = true) : ((putCell off v cells).all fun c => p c.1) = true := by
  induction cells with
  | nil => simp [putCell, hoff]
  | cons c rest ih =>
    obtain ⟨a, w⟩ := c
    simp only [List.all_cons, Bool.and_eq_true] at h
    simp only [putCell]
    split_ifs with h1 h2
    · simp only [List.all_cons, hoff, h.1, h.2, Bool.and_self]
    · simp only [List.all_cons, hoff, h.2, Bool.and_self]
    · simp only [List.all_cons, h.1, ih h.2, Bool.and_self]

theorem findCell_none_of_lt {off : Nat} (cells : List Host.Cell) (h : risingCells cells = true)
    (hlt : ∀ c ∈ cells.head?, off < c.1) : findCell off cells = none := by
  induction cells with
  | nil => rfl
  | cons c rest ih =>
    have hc : off < c.1 := hlt c (by simp)
    rw [findCell, if_neg (by omega)]
    cases rest with
    | nil => rfl
    | cons d rest =>
      simp only [risingCells, Bool.and_eq_true, decide_eq_true_eq] at h
      exact ih h.2 (by simp; omega)

/-- Two canonical lists that read alike everywhere are the same list. -/
theorem cells_ext {xs ys : List Host.Cell} (hx : risingCells xs = true) (hy : risingCells ys = true)
    (h : ∀ off, findCell off xs = findCell off ys) : xs = ys := by
  induction xs generalizing ys with
  | nil =>
    cases ys with
    | nil => rfl
    | cons d ys => simpa [findCell] using h d.1
  | cons c xs ih =>
    obtain ⟨a, v⟩ := c
    cases ys with
    | nil => simpa [findCell] using h a
    | cons d ys =>
      obtain ⟨b, w⟩ := d
      have tail : ∀ {e : Host.Cell} {zs : List Host.Cell}, risingCells (e :: zs) = true →
          risingCells zs = true ∧ ∀ c ∈ zs.head?, e.1 < c.1 := by
        intro e zs hz
        cases zs with
        | nil => simp [risingCells]
        | cons f zs =>
          simp only [risingCells, Bool.and_eq_true, decide_eq_true_eq] at hz
          exact ⟨hz.2, by simpa using hz.1⟩
      obtain ⟨hx1, hx2⟩ := tail hx
      obtain ⟨hy1, hy2⟩ := tail hy
      have hab : a = b := by
        rcases Nat.lt_trichotomy a b with hlt | heq | hgt
        · have := h a
          rw [findCell_none_of_lt ((b, w) :: ys) hy (by simpa using hlt)] at this
          simp [findCell] at this
        · exact heq
        · have := h b
          rw [findCell_none_of_lt ((a, v) :: xs) hx (by simpa using hgt)] at this
          simp [findCell] at this
      subst hab
      have hvw : v = w := by simpa [findCell] using h a
      subst hvw
      rw [ih hx1 hy1 fun off => ?_]
      by_cases ho : a = off
      · subst ho
        rw [findCell_none_of_lt xs hx1 hx2, findCell_none_of_lt ys hy1 hy2]
      · simpa [findCell, ho] using h off

/-- Equal memories are equal data: the canonical form is the only one with its bytes. -/
theorem Memory.ext_find {m m' : Memory} (h : m.wf = true) (h' : m'.wf = true)
    (hf : ∀ off, m.find off = m'.find off) : m = m' := by
  simp only [Memory.wf, Bool.and_eq_true] at h h'
  obtain ⟨xs⟩ := m
  obtain ⟨ys⟩ := m'
  exact congrArg Memory.mk (cells_ext h.1 h'.1 hf)

/-! ## Bytes of the spaces -/

theorem Space.holds_iff (sp : Space) (off : Nat) :
    sp.holds off = true ↔ sp.base ≤ off ∧ off < sp.base + sp.cap := by simp [Space.holds]

/-- A byte within the capacity lies in its space. -/
theorem bufferOffset_of_lt {sp : Space} {i : Nat} (h : i < sp.cap) : bufferOffset (sp.base + i) = true := by
  have hs : sp.holds (sp.base + i) = true := (sp.holds_iff _).2 (by omega)
  unfold bufferOffset
  cases sp <;> rw [hs] <;> simp

/-- No two bytes of the spaces share an offset (R26). -/
theorem offset_inj {sp sp' : Space} {i i' : Nat} (h : i < sp.cap) (h' : i' < sp'.cap)
    (e : sp.base + i = sp'.base + i') : sp = sp' ∧ i = i' := by
  cases sp <;> cases sp' <;>
    simp_all [Space.base, Space.cap, Config.pbCap, Config.cbCap, Config.symCap] <;> omega

theorem Memory.reset_wf : State.reset.mem.wf = true := rfl

theorem State.setByte_wf (s : State) (sp : Space) (i : Nat) (v : Byte) (h : s.mem.wf = true) :
    (s.setByte sp i v).mem.wf = true := by
  unfold State.setByte
  split
  case isTrue hi =>
    simp only [Memory.wf, Bool.and_eq_true] at h ⊢
    exact ⟨risingCells_putCell _ _ _ h.1, all_putCell _ _ _ (bufferOffset_of_lt hi) h.2⟩
  case isFalse => exact h

theorem State.setBytesFrom_wf (sp : Space) (i : Nat) (bs : List Byte) (s : State) (h : s.mem.wf = true) :
    (State.setBytesFrom sp i bs s).mem.wf = true := by
  induction bs generalizing i s with
  | nil => exact h
  | cons v rest ih => exact ih _ _ (State.setByte_wf s sp i v h)

theorem State.setBytes_wf (s : State) (sp : Space) (bs : List Byte) (h : s.mem.wf = true) :
    (s.setBytes sp bs).mem.wf = true := State.setBytesFrom_wf sp 0 bs s h

theorem State.byte_setByte_same {s : State} {sp : Space} {i : Nat} (v : Byte) (h : i < sp.cap) :
    (s.setByte sp i v).byte sp i = v := by
  simp [State.byte, State.setByte, h, Memory.find]

theorem State.byte_setByte_other {s : State} {sp sp' : Space} {i i' : Nat} (v : Byte)
    (h : ¬ (sp = sp' ∧ i = i')) : (s.setByte sp i v).byte sp' i' = s.byte sp' i' := by
  unfold State.setByte
  split
  case isFalse => rfl
  case isTrue hi =>
    simp only [State.byte]
    split
    case isFalse => rfl
    case isTrue hi' =>
      simp only [Memory.find]
      rw [findCell_putCell_other fun e => h (offset_inj hi hi' e)]

/-- What a read gives after consecutive bytes were written: the byte written there, or what was there. -/
theorem State.byte_setBytesFrom (sp : Space) (i : Nat) (bs : List Byte) (s : State) (sp' : Space) (i' : Nat)
    (hcap : i + bs.length ≤ sp.cap) :
    (State.setBytesFrom sp i bs s).byte sp' i' =
      if sp = sp' ∧ i ≤ i' ∧ i' < i + bs.length then bs.getD (i' - i) 0 else s.byte sp' i' := by
  induction bs generalizing i s with
  | nil => rw [if_neg (by simp only [List.length_nil]; omega)]; rfl
  | cons v rest ih =>
    simp only [List.length_cons] at hcap
    rw [State.setBytesFrom, ih (i + 1) _ (by omega)]
    by_cases hsp : sp = sp'
    · subst hsp
      by_cases hi : i' = i
      · subst hi
        rw [if_neg (by omega), State.byte_setByte_same v (by omega), if_pos (by simp)]
        simp
      · rw [State.byte_setByte_other v (by simp; omega)]
        by_cases hin : i + 1 ≤ i' ∧ i' < i + 1 + rest.length
        · rw [if_pos (by simpa using hin), if_pos (by simp; omega)]
          rw [show i' - i = (i' - (i + 1)) + 1 by omega, List.getD_cons_succ]
        · rw [if_neg (by simpa using hin), if_neg (by simp; omega)]
    · simp [hsp, State.byte_setByte_other]

/-- `S[0 : len(bytes)) <- bytes`, read back (R32): the bytes at the list's length and above are unchanged. -/
theorem State.byte_setBytes (s : State) (sp : Space) (bs : List Byte) (sp' : Space) (i : Nat)
    (hcap : bs.length ≤ sp.cap) :
    (s.setBytes sp bs).byte sp' i = if sp = sp' ∧ i < bs.length then bs.getD i 0 else s.byte sp' i := by
  rw [State.setBytes, State.byte_setBytesFrom _ _ _ _ _ _ (by simpa using hcap)]
  simp

theorem State.byte_setBytes_other (s : State) {sp sp' : Space} (bs : List Byte) (i : Nat) (h : sp ≠ sp') :
    (s.setBytes sp bs).byte sp' i = s.byte sp' i := by
  suffices ∀ j (s : State), (State.setBytesFrom sp j bs s).byte sp' i = s.byte sp' i from this 0 s
  induction bs with
  | nil => intro j s; rfl
  | cons v rest ih =>
    intro j s
    rw [State.setBytesFrom, ih, State.byte_setByte_other v (by simp [h])]

/-- A byte write changes the buffer memory only. -/
theorem State.setBytes_eq_withMem (s : State) (sp : Space) (bs : List Byte) :
    s.setBytes sp bs = { s with mem := (s.setBytes sp bs).mem } := by
  suffices ∀ i (s : State), State.setBytesFrom sp i bs s = { s with mem := (State.setBytesFrom sp i bs s).mem } from
    this 0 s
  induction bs with
  | nil => intro i s; rfl
  | cons v rest ih =>
    intro i s
    have hv : s.setByte sp i v = { s with mem := (s.setByte sp i v).mem } := by
      unfold State.setByte
      split <;> rfl
    rw [State.setBytesFrom, ih, hv]

/-- What a byte write leaves in the buffer memory depends on the buffer memory only. -/
theorem State.setBytes_mem_congr {s t : State} (h : s.mem = t.mem) (sp : Space) (bs : List Byte) :
    (s.setBytes sp bs).mem = (t.setBytes sp bs).mem := by
  suffices ∀ i (s t : State), s.mem = t.mem → (State.setBytesFrom sp i bs s).mem = (State.setBytesFrom sp i bs t).mem from
    this 0 s t h
  induction bs with
  | nil => intro i s t h; exact h
  | cons v rest ih =>
    intro i s t h
    refine ih _ _ _ ?_
    unfold State.setByte
    split
    · simp only [h]
    · exact h

@[simp] theorem State.bytes_length (s : State) (sp : Space) (n : Nat) : (s.bytes sp n).length = n := by
  simp [State.bytes]

theorem State.bytes_getD {s : State} {sp : Space} {n i : Nat} (h : i < n) : (s.bytes sp n).getD i 0 = s.byte sp i := by
  simp [State.bytes, List.getD, h]

/-- A byte depends on the buffer memory and the reset count only. -/
theorem State.byte_congr {s t : State} (hm : s.mem = t.mem) (he : s.epoch = t.epoch) (sp : Space) (i : Nat) :
    s.byte sp i = t.byte sp i := by simp [State.byte, hm, he]

theorem State.bytes_congr {s t : State} (hm : s.mem = t.mem) (he : s.epoch = t.epoch) (sp : Space) (n : Nat) :
    s.bytes sp n = t.bytes sp n := by
  simp only [State.bytes]
  exact List.map_congr_left fun i _ => State.byte_congr hm he sp i

end Sys2Proof.Machine
end

