-- ==== Sys2Proof/Laws/Commands.lean ====
section
/-! SUPPORT. The table cache after a write, and for each check and each command one lemma that says everything it can
answer. Later proofs cite these and do not unfold the commands again. -/

namespace Sys2Proof.Machine

/-! ## The table cache -/

theorem rateRow_lt {P : Params} {r : Nat} {row : RateRow} (h : rateRow P r = some row) : r < 8 := by
  by_contra hr
  simp [rateRow, Vector.getElem?_eq_none (show 8 ≤ r by omega)] at h

theorem rateRow_none {P : Params} {r : Nat} (h : 8 ≤ r) : rateRow P r = none := by
  simp [rateRow, Vector.getElem?_eq_none h]

theorem rateRow_exists (P : Params) {r : Nat} (h : r < 8) : ∃ row, rateRow P r = some row :=
  ⟨P.rates[r], by simp [rateRow, h]⟩

@[simp] theorem State.slot_setSlot_same {s : State} {r : Nat} (sl : Slot) (h : r < 8) : (s.setSlot r sl).slot r = sl := by
  simp [State.slot, State.setSlot, h]

theorem State.slot_setSlot_other {s : State} {r r' : Nat} (sl : Slot) (h : r ≠ r') :
    (s.setSlot r sl).slot r' = s.slot r' := by
  simp [State.slot, State.setSlot, Vector.getElem?_setIfInBounds_ne h]

/-- A slot depends on the cache only. -/
theorem State.slot_congr {s t : State} (h : s.cache = t.cache) (r : Nat) : s.slot r = t.slot r := by
  simp [State.slot, h]

@[simp] theorem genTable_length (n b : Nat) : (genTable n b).length = n := by simp [genTable]

theorem genTable_getElem? {n b k : Nat} (h : k < n) : (genTable n b)[k]? = some (genEntry n b k) := by
  simp [genTable, h]

/-- The slot `fillSlot` writes: valid, the generated entries first, later entries as they were (R77). -/
theorem State.slot_fillSlot {s : State} {r : Nat} (row : RateRow) (h : r < 8) :
    (s.fillSlot r row).slot r =
      ⟨true, genTable row.ncbps row.nbpsc ++ (s.slot r).entries.drop row.ncbps⟩ := by
  simp [State.fillSlot, h]

theorem State.slot_fillSlot_other {s : State} {r r' : Nat} (row : RateRow) (h : r ≠ r') :
    (s.fillSlot r row).slot r' = s.slot r' := State.slot_setSlot_other _ h

theorem State.table_fillSlot {s : State} {r : Nat} (row : RateRow) (h : r < 8) :
    (s.fillSlot r row).table r row.ncbps = genTable row.ncbps row.nbpsc := by
  simp [State.table, State.slot_fillSlot row h]

/-- A list whose first `n` elements are given reads as those elements. -/
theorem take_eq_genTable {es : List Entry} {n b : Nat} (h : ∀ k, k < n → es[k]? = some (genEntry n b k)) :
    es.take n = genTable n b := by
  apply List.ext_getElem?
  intro k
  by_cases hk : k < n
  · rw [List.getElem?_take_of_lt hk, h k hk, genTable_getElem? hk]
  · rw [List.getElem?_eq_none (by simp; omega), List.getElem?_eq_none (by simp; omega)]

/-- In a sound cache a valid slot's table is the generated one (R24). -/
theorem CacheSound.table_eq {P : Params} {s : State} (hs : CacheSound P s) {r : Nat} {row : RateRow}
    (hr : rateRow P r = some row) (hv : (s.slot r).valid = true) :
    s.table r row.ncbps = genTable row.ncbps row.nbpsc := take_eq_genTable (hs r row hr hv)

theorem CacheSound.congr {P : Params} {s t : State} (hs : CacheSound P s) (h : s.cache = t.cache) : CacheSound P t := by
  intro r row hr hv
  rw [← State.slot_congr h r] at hv ⊢
  exact hs r row hr hv

theorem CacheSound.fillSlot {P : Params} {s : State} (hs : CacheSound P s) {r : Nat} {row : RateRow}
    (hr : rateRow P r = some row) : CacheSound P (s.fillSlot r row) := by
  intro r' row' hr' hv k hk
  by_cases h : r = r'
  · subst h
    cases Option.some.inj (hr.symm.trans hr')
    rw [State.slot_fillSlot _ (rateRow_lt hr)]
    rw [List.getElem?_append_left (by simpa using hk), genTable_getElem? hk]
  · rw [State.slot_fillSlot_other _ h] at hv ⊢
    exact hs r' row' hr' hv k hk

theorem CacheSound.ensureTable {P : Params} {s : State} (hs : CacheSound P s) {r : Nat} {row : RateRow}
    (hr : rateRow P r = some row) : CacheSound P (s.ensureTable r row) := by
  unfold State.ensureTable
  split
  · exact hs
  · exact hs.fillSlot hr

/-- After `EnsureTable` the slot is valid and, the cache being sound, holds the generated table (R78). -/
theorem State.table_ensureTable {P : Params} {s : State} (hs : CacheSound P s) {r : Nat} {row : RateRow}
    (hr : rateRow P r = some row) : (s.ensureTable r row).table r row.ncbps = genTable row.ncbps row.nbpsc := by
  unfold State.ensureTable
  split
  · exact hs.table_eq hr ‹_›
  · exact State.table_fillSlot row (rateRow_lt hr)

theorem State.valid_ensureTable (s : State) {r : Nat} (row : RateRow) (h : r < 8) :
    ((s.ensureTable r row).slot r).valid = true := by
  unfold State.ensureTable
  split
  · assumption
  · rw [State.slot_fillSlot row h]

theorem State.slot_ensureTable_other {s : State} {r r' : Nat} (row : RateRow) (h : r ≠ r') :
    (s.ensureTable r row).slot r' = s.slot r' := by
  unfold State.ensureTable
  split
  · rfl
  · exact State.slot_fillSlot_other row h

/-! ## The checks -/

theorem withRate_some {P : Params} {rate : Nat} {row : RateRow} (h : rateRow P rate = some row) (c : Option Space)
    (s : State) (k : RateRow → State) : withRate P rate c s k = k row := by simp [withRate, h]

theorem withRate_none {P : Params} {rate : Nat} (h : 8 ≤ rate) (c : Option Space) (s : State) (k : RateRow → State) :
    withRate P rate c s k = raiseFault (.invalidRate rate) c s := by simp [withRate, rateRow_none h]

theorem requireTable_valid {rate : Nat} {s : State} (h : (s.slot rate).valid = true) (k : State) :
    requireTable rate s k = k := by simp [requireTable, h]

theorem requireTable_invalid {rate : Nat} {s : State} (h : (s.slot rate).valid = false) (k : State) :
    requireTable rate s k = raiseFault (.tableNotValid rate) none s := by simp [requireTable, h]

theorem requireLen_eq {sp : Space} {n : Nat} {s : State} (h : (s.len sp).toNat = n) (c : Option Space) (k : State) :
    requireLen sp n c s k = k := by simp [requireLen, h]

theorem requireLen_ne {sp : Space} {n : Nat} {s : State} (h : (s.len sp).toNat ≠ n) (c : Option Space) (k : State) :
    requireLen sp n c s k = raiseFault (.bufferSizeMismatch n) c s := by simp [requireLen, h]

theorem withLengths_exact {row : RateRow} {length : Nat} (h : exactFor row length) (c : Option Space) (s : State)
    (k : PacketLengths → State) : withLengths row length c s k = k (packetLengths row.ndbps row.ncbps length) :=
  if_pos h

theorem withLengths_inexact {row : RateRow} {length : Nat} (h : ¬ exactFor row length) (c : Option Space) (s : State)
    (k : PacketLengths → State) : withLengths row length c s k =
      raiseFault (.inexactLength (packetLengths row.ndbps row.ncbps length).nsym) c s := if_neg h

/-! ## What each command can answer -/

/-- `GENTBL` faults on the rate or fills the slot (R77). -/
theorem gentbl_cases (P : Params) (rate : Nat) (s : State) :
    (8 ≤ rate ∧ gentbl P rate s = raiseFault (.invalidRate rate) none s) ∨
    ∃ row, rateRow P rate = some row ∧
      gentbl P rate s = complete ((s.fillSlot rate row).setResult row.ncbps) := by
  by_cases hr : rate < 8
  · obtain ⟨row, h⟩ := rateRow_exists P hr
    exact .inr ⟨row, h, withRate_some h _ _ _⟩
  · exact .inl ⟨by omega, withRate_none (by omega) _ _ _⟩

/-- `ILV` and `DILV` fault on the rate, the table or a declared length, in this order, or transform one symbol (R85, R86). -/
theorem symbolCommand_cases (P : Params) (f : List Entry → List Byte → List Byte → List Byte) (rate : Nat) (s : State) :
    (8 ≤ rate ∧ symbolCommand P f rate s = raiseFault (.invalidRate rate) none s) ∨
    (rate < 8 ∧ (s.slot rate).valid = false ∧ symbolCommand P f rate s = raiseFault (.tableNotValid rate) none s) ∨
    ∃ row, rateRow P rate = some row ∧ (s.slot rate).valid = true ∧
      (((s.sibLen.toNat ≠ row.ncbps / 8 ∨ s.sobLen.toNat ≠ row.ncbps / 8) ∧
        symbolCommand P f rate s = raiseFault (.bufferSizeMismatch (row.ncbps / 8)) none s) ∨
       (s.sibLen.toNat = row.ncbps / 8 ∧ s.sobLen.toNat = row.ncbps / 8 ∧
        symbolCommand P f rate s = complete ((s.setBytes .sob
          (f (s.table rate row.ncbps) (s.bytes .sib (row.ncbps / 8)) (s.bytes .sob (row.ncbps / 8)))).setResult
            (row.ncbps / 8)))) := by
  by_cases hr : rate < 8
  · obtain ⟨row, h⟩ := rateRow_exists P hr
    simp only [symbolCommand, withRate_some h]
    by_cases hv : (s.slot rate).valid = true
    · rw [requireTable_valid hv]
      refine .inr (.inr ⟨row, h, hv, ?_⟩)
      by_cases hi : (s.len .sib).toNat = row.ncbps / 8
      · rw [requireLen_eq hi]
        by_cases ho : (s.len .sob).toNat = row.ncbps / 8
        · rw [requireLen_eq ho]
          exact .inr ⟨hi, ho, rfl⟩
        · exact .inl ⟨.inr ho, requireLen_ne ho _ _⟩
      · exact .inl ⟨.inl hi, requireLen_ne hi _ _⟩
    · rw [requireTable_invalid (by simpa using hv)]
      exact .inr (.inl ⟨hr, by simpa using hv, rfl⟩)
  · exact .inl ⟨by omega, withRate_none (by omega) _ _ _⟩

/-- `CLEN` faults on the rate or on inexact lengths, or reports a length (R95). -/
theorem clen_cases (P : Params) (rate length : Nat) (s : State) :
    (8 ≤ rate ∧ clen P rate length s = raiseFault (.invalidRate rate) none s) ∨
    ∃ row, rateRow P rate = some row ∧
      let l := packetLengths row.ndbps row.ncbps length
      ((¬ exactFor row length ∧ clen P rate length s = raiseFault (.inexactLength l.nsym) none s) ∨
       (exactFor row length ∧ clen P rate length s = complete (s.setResult l.encMsgLen))) := by
  by_cases hr : rate < 8
  · obtain ⟨row, h⟩ := rateRow_exists P hr
    simp only [clen, withRate_some h]
    refine .inr ⟨row, h, ?_⟩
    by_cases hx : exactFor row length
    · exact .inr ⟨hx, withLengths_exact hx _ _ _⟩
    · exact .inl ⟨hx, withLengths_inexact hx _ _ _⟩
  · exact .inl ⟨by omega, withRate_none (by omega) _ _ _⟩

/-- `PENC` faults on the rate, on inexact lengths or on `PB_LEN`, in this order, with `CB_LEN` cleared and the rest
kept, or writes the packet (R102). -/
theorem penc_cases (P : Params) (rate seed length : Nat) (s : State) :
    (8 ≤ rate ∧ penc P rate seed length s = raiseFault (.invalidRate rate) (some .cb) s) ∨
    ∃ row, rateRow P rate = some row ∧
      let l := packetLengths row.ndbps row.ncbps length
      let s' := s.ensureTable rate row
      ((¬ exactFor row length ∧ penc P rate seed length s = raiseFault (.inexactLength l.nsym) (some .cb) s) ∨
       (exactFor row length ∧ s.pbLen.toNat ≠ length ∧
        penc P rate seed length s = raiseFault (.bufferSizeMismatch length) (some .cb) s) ∨
       (exactFor row length ∧ s.pbLen.toNat = length ∧
        penc P rate seed length s = complete (((s'.setBytes .cb
          (encodePacket P row (s'.table rate row.ncbps) l seed (s.bytes .pb length))).setLen .cb
            (BitVec.ofNat 32 l.encMsgLen)).setResult l.encMsgLen))) := by
  by_cases hr : rate < 8
  · obtain ⟨row, h⟩ := rateRow_exists P hr
    simp only [penc, withRate_some h]
    refine .inr ⟨row, h, ?_⟩
    by_cases hx : exactFor row length
    · rw [withLengths_exact hx]
      by_cases hl : (s.len .pb).toNat = length
      · rw [requireLen_eq hl]
        exact .inr (.inr ⟨hx, hl, rfl⟩)
      · exact .inr (.inl ⟨hx, hl, requireLen_ne hl _ _⟩)
    · exact .inl ⟨hx, withLengths_inexact hx _ _ _⟩
  · exact .inl ⟨by omega, withRate_none (by omega) _ _ _⟩

/-- `PDEC` faults on the rate, on inexact lengths or on `CB_LEN` before the table is ensured, or after it with
`FecUncorrectable`, or writes the payload (R104). -/
theorem pdec_cases (P : Params) (rate seed length : Nat) (s : State) :
    (8 ≤ rate ∧ pdec P rate seed length s = raiseFault (.invalidRate rate) (some .pb) s) ∨
    ∃ row, rateRow P rate = some row ∧
      let l := packetLengths row.ndbps row.ncbps length
      let s' := s.ensureTable rate row
      let answer := decodePacket P row (s'.table rate row.ncbps) l seed length (s.bytes .cb l.encMsgLen)
      ((¬ exactFor row length ∧ pdec P rate seed length s = raiseFault (.inexactLength l.nsym) (some .pb) s) ∨
       (exactFor row length ∧ s.cbLen.toNat ≠ l.encMsgLen ∧
        pdec P rate seed length s = raiseFault (.bufferSizeMismatch l.encMsgLen) (some .pb) s) ∨
       (exactFor row length ∧ s.cbLen.toNat = l.encMsgLen ∧ answer = .uncorrectable ∧
        pdec P rate seed length s = raiseFault .fecUncorrectable (some .pb) s') ∨
       (exactFor row length ∧ s.cbLen.toNat = l.encMsgLen ∧ ∃ payload, answer = .ok payload ∧
        pdec P rate seed length s = complete (((s'.setBytes .pb payload).setLen .pb
          (BitVec.ofNat 32 length)).setResult length))) := by
  by_cases hr : rate < 8
  · obtain ⟨row, h⟩ := rateRow_exists P hr
    simp only [pdec, withRate_some h]
    refine .inr ⟨row, h, ?_⟩
    by_cases hx : exactFor row length
    · rw [withLengths_exact hx]
      by_cases hl : (s.len .cb).toNat = (packetLengths row.ndbps row.ncbps length).encMsgLen
      · rw [requireLen_eq hl]
        refine .inr (.inr ?_)
        cases decodePacket P row ((s.ensureTable rate row).table rate row.ncbps)
          (packetLengths row.ndbps row.ncbps length) seed length
          (s.bytes .cb (packetLengths row.ndbps row.ncbps length).encMsgLen) with
        | ok payload => exact .inr ⟨hx, hl, payload, rfl, rfl⟩
        | uncorrectable => exact .inl ⟨hx, hl, rfl, rfl⟩
      · exact .inr (.inl ⟨hx, hl, requireLen_ne hl _ _⟩)
    · exact .inl ⟨hx, withLengths_inexact hx _ _ _⟩
  · exact .inl ⟨by omega, withRate_none (by omega) _ _ _⟩

/-! ## The rate table -/

/-- What R8 says of one row, as plain inequalities. -/
theorem RateRow.wf_bounds {row : RateRow} (h : row.wf = true) :
    interleavable row.ncbps row.nbpsc = true ∧ row.ncbps % 16 = 0 ∧ 16 ≤ row.ncbps ∧ row.ncbps ≤ 288 ∧ 1 ≤ row.ndbps ∧
      ceilDiv 32782 row.ndbps * (row.ncbps / 8) ≤ 8208 ∧ 0 < row.scheme.data ∧ row.scheme.data ≤ row.scheme.coded ∧
      row.ncbps * row.scheme.data = row.ndbps * row.scheme.coded := by
  simp only [RateRow.wf, RateRow.inBounds, RateRow.fitsChannelBuffer, RateRow.schemeAgrees, Bool.and_eq_true,
    decide_eq_true_eq, beq_iff_eq] at h
  obtain ⟨⟨⟨hi, hb⟩, hc⟩, hs⟩ := h
  have hi' := hi
  simp only [interleavable, Bool.and_eq_true, beq_iff_eq] at hi'
  have hsym : row.ncbps / 8 ≤ 36 := hb.2
  have hcap : ceilDiv 32782 row.ndbps * (row.ncbps / 8) ≤ 8208 := hc
  refine ⟨hi, hi'.1.2, ?_, ?_, ?_, hcap, ?_, ?_, ?_⟩ <;> omega

/-- Every row of a well-formed rate table is well formed (R8). -/
theorem RateTable.row_wf {P : Params} {r : Nat} {row : RateRow} (hP : P.rates.wf = true)
    (h : rateRow P r = some row) : row.wf = true := by
  simp only [RateTable.wf, List.all_eq_true] at hP
  exact hP _ (by simpa using Vector.mem_of_getElem? h)

end Sys2Proof.Machine
end

