-- ==== Sys2Proof/Laws/Decode.lean ====
section
/-! SUPPORT. What the decoder can answer, and a word's fields bit by bit. -/

namespace Sys2Proof

/-- Every command the decoder reads, with the fields it reads it from (R57). -/
theorem decode_cases {w : Word} {i : Instr} (h : decode w = .ok i) :
    (field w 31 28 = 1 ∧ field w 23 0 = 0 ∧ i = .gentbl (field w 27 24)) ∨
    (field w 31 28 = 2 ∧ field w 23 0 = 0 ∧ i = .ilv (field w 27 24)) ∨
    (field w 31 28 = 3 ∧ field w 23 0 = 0 ∧ i = .dilv (field w 27 24)) ∨
    (field w 31 28 = 4 ∧ field w 23 12 = 0 ∧ i = .clen (field w 27 24) (field w 11 0)) ∨
    (field w 31 28 = 5 ∧ field w 16 12 = 0 ∧ i = .penc (field w 27 24) (field w 23 17) (field w 11 0)) ∨
    (field w 31 28 = 6 ∧ field w 16 12 = 0 ∧ i = .pdec (field w 27 24) (field w 23 17) (field w 11 0)) ∨
    (field w 31 28 = 7 ∧ field w 27 8 = 0 ∧ i = .brev (field w 7 0)) := by
  unfold decode at h
  simp only [acceptIfZero] at h
  split at h <;> (try split at h) <;> first | (cases h; done) | (cases h; simp_all)

/-- Bit `k` of a field is bit `lo + k` of the word (R9). -/
theorem field_testBit (w : Word) (hi lo k : Nat) :
    (field w hi lo).testBit k = (decide (k < hi - lo + 1) && w.getLsbD (lo + k)) := by
  simp [field, Nat.testBit_mod_two_pow, Nat.testBit_div_two_pow, BitVec.getLsbD, Nat.add_comm]

/-- A field's value, bit by bit. -/
theorem field_eq_iff (w : Word) (hi lo v : Nat) (hv : v < 2 ^ (hi - lo + 1)) :
    field w hi lo = v ↔ ∀ k, k < hi - lo + 1 → w.getLsbD (lo + k) = v.testBit k := by
  constructor
  · rintro rfl k hk
    simp [field_testBit, hk]
  · intro h
    apply Nat.eq_of_testBit_eq
    intro k
    rw [field_testBit]
    by_cases hk : k < hi - lo + 1
    · simp [hk, h k hk]
    · have : v.testBit k = false := Nat.testBit_lt_two_pow
        (lt_of_lt_of_le hv (Nat.pow_le_pow_right (by omega) (by omega)))
      simp [hk, this]

end Sys2Proof
end

