-- ==== Sys2Proof/Laws/HostPort.lean ====
section
/-! SUPPORT. Which region an offset of the flat map selects, as plain inequalities (R45), and which ports refuse (R40). -/

namespace Sys2Proof.Machine

theorem regionOf_registers {off : Nat} (h : off < 0x28) : regionOf off = some .registers := if_pos h

theorem regionOf_buffer {off : Nat} {sp : Space} (h : sp.base ≤ off ∧ off < sp.base + sp.cap) :
    regionOf off = some (.buffer sp) := by
  have holds : ∀ sp' : Space, sp'.holds off = true ↔ sp' = sp := by
    intro sp'
    simp only [Space.holds, Bool.and_eq_true, decide_eq_true_eq]
    cases sp <;> cases sp' <;>
      simp only [Space.base, Space.cap, Config.pbCap, Config.cbCap, Config.symCap] at h ⊢ <;> simp <;> omega
  have h0 : ¬ off < 0x28 := by
    have : 0x100 ≤ sp.base := by cases sp <;> decide
    omega
  unfold regionOf
  simp only [h0, if_false, holds]
  cases sp <;> rfl

theorem regionOf_tableWindow {off : Nat} (h : 0x8000 ≤ off ∧ off < 0xC000) : regionOf off = some .tableWindow := by
  have holds : ∀ sp : Space, ¬ sp.holds off = true := by
    intro sp
    have : sp.base + sp.cap ≤ 0x8000 := by cases sp <;> decide
    simp only [Space.holds, Bool.and_eq_true, decide_eq_true_eq]
    omega
  unfold regionOf
  rw [if_neg (by omega), if_neg (holds _), if_neg (holds _), if_neg (holds _), if_neg (holds _), if_pos h]

theorem regionOf_unmapped {off : Nat} (h0 : 0x28 ≤ off) (hs : ∀ sp : Space, ¬ (sp.base ≤ off ∧ off < sp.base + sp.cap))
    (hw : ¬ (0x8000 ≤ off ∧ off < 0xC000)) : regionOf off = none := by
  have holds : ∀ sp : Space, ¬ sp.holds off = true := by
    intro sp
    simpa only [Space.holds, Bool.and_eq_true, decide_eq_true_eq] using hs sp
  unfold regionOf
  rw [if_neg (by omega), if_neg (holds _), if_neg (holds _), if_neg (holds _), if_neg (holds _), if_neg hw]

theorem Port.refusal_buf {sp : Space} {i : Nat} (h : i < sp.cap) : (Port.buf sp i).refusal = none := if_pos h

theorem Port.refusal_tbl {r k : Nat} (h : r < 8 ∧ k < 512) : (Port.tbl r k).refusal = none := if_pos h

/-- A write through a table port never has a next state (U6). -/
theorem writePort_tbl (r k : Nat) (v : Word) (s : State) : ∃ why, writePort (.tbl r k) v s = .refused why := by
  cases h : (Port.tbl r k).refusal <;> simp [writePort, h]

end Sys2Proof.Machine
end

