-- ==== Sys2Proof/Laws/Interleave.lean ====
section
/-! SUPPORT. The transforms of one symbol, bit by bit: a table that lists pairs of bit positions sets exactly the paired
bits, and changes no length. -/

namespace Sys2Proof.Machine

@[simp] theorem orIf_length (set : Bool) (i : Nat) (m : Byte) (out : List Byte) :
    (orIf set i m out).length = out.length := by
  unfold orIf; split <;> simp

@[simp] theorem interleave_length (T : List Entry) (inp out : List Byte) : (interleave T inp out).length = out.length := by
  unfold interleave
  induction T generalizing out with
  | nil => rfl
  | cons e T ih => rw [List.foldl_cons, ih, orIf_length]

@[simp] theorem deinterleave_length (T : List Entry) (inp out : List Byte) :
    (deinterleave T inp out).length = out.length := by
  unfold deinterleave
  induction T generalizing out with
  | nil => rfl
  | cons e T ih => rw [List.foldl_cons, ih, orIf_length]

/-- An entry read in the other direction (R84). -/
def Entry.flip (e : Entry) : Entry := ⟨e.dstByte, e.srcByte, e.dstMask, e.srcMask⟩

/-- Deinterleaving is interleaving with the roles of source and destination exchanged (R82, R84). -/
theorem deinterleave_eq_interleave_flip (T : List Entry) (inp out : List Byte) :
    deinterleave T inp out = interleave (T.map Entry.flip) inp out := by
  simp [deinterleave, interleave, List.foldl_map, Entry.flip]

@[simp] theorem flip_entryOf (k j : Nat) : (entryOf k j).flip = entryOf j k := rfl

/-! ## Masks -/

theorem bitMask_mod (p : Nat) : bitMask p = bitMask (p % 8) := by simp [bitMask]

/-- The mask of a bit position has one bit set, at index `7 - (p mod 8)` (R10, R35). -/
theorem bitMask_getLsbD (p i : Nat) : (bitMask p).getLsbD i = decide (i = 7 - p % 8) := by
  rw [bitMask_mod]
  have hp : p % 8 < 8 := Nat.mod_lt _ (by omega)
  generalize p % 8 = q at hp
  by_cases hi : i < 8
  · revert hp hi
    have : ∀ q < 8, ∀ i < 8, (bitMask q).getLsbD i = decide (i = 7 - q % 8) := by decide
    intro hq hi
    rw [this q hq i hi, Nat.mod_eq_of_lt hq]
  · rw [BitVec.getLsbD_of_ge _ _ (by omega)]
    symm
    simp
    omega

/-- Testing a byte under the mask of a position tests that one bit. -/
theorem and_bitMask_ne_zero (b : Byte) (p : Nat) : ((b &&& bitMask p) != 0) = b.getLsbD (7 - p % 8) := by
  have hm : ∀ i, (bitMask p).getLsbD i = decide (i = 7 - p % 8) := bitMask_getLsbD p
  by_cases h : b.getLsbD (7 - p % 8) = true
  · rw [h]
    simp only [bne_iff_ne, ne_eq]
    intro h0
    have := congrArg (fun x => BitVec.getLsbD x (7 - p % 8)) h0
    simp [hm, h] at this
  · simp only [Bool.not_eq_true] at h
    rw [h]
    simp only [bne_eq_false_iff_eq]
    apply BitVec.eq_of_getLsbD_eq
    intro i _
    simp only [BitVec.getLsbD_and, hm, BitVec.ofNat_eq_ofNat, BitVec.getLsbD_zero, Bool.and_eq_false_imp,
      decide_eq_false_iff_not]
    rintro hb rfl
    rw [h] at hb
    cases hb

theorem bitAt_eq (buf : List Byte) (p : Nat) : bitAt buf p = (buf.getD (p / 8) 0).getLsbD (7 - p % 8) :=
  and_bitMask_ne_zero _ _

/-- Two buffers of one length with the same bits are the same buffer. -/
theorem eq_of_bitAt {a b : List Byte} (hl : a.length = b.length) (h : ∀ p, p < 8 * a.length → bitAt a p = bitAt b p) :
    a = b := by
  apply List.ext_getElem hl
  intro i hi hi'
  apply BitVec.eq_of_getLsbD_eq
  intro q hq
  have := h (8 * i + (7 - q)) (by omega)
  rw [bitAt_eq, bitAt_eq, show (8 * i + (7 - q)) / 8 = i by omega, show 7 - (8 * i + (7 - q)) % 8 = q by omega] at this
  simpa [List.getD, hi, hi'] using this

/-- What one conditional OR does to one bit. -/
theorem bitAt_orIf (set : Bool) (j : Nat) (out : List Byte) (p : Nat) (hj : j < 8 * out.length) :
    bitAt (orIf set (j / 8) (bitMask j) out) p = (bitAt out p || (set && decide (p = j))) := by
  cases set with
  | false => simp [orIf]
  | true =>
    simp only [orIf, if_true, Bool.true_and, bitAt_eq]
    by_cases hb : p / 8 = j / 8
    · rw [hb]
      rw [show (out.set (j / 8) (out.getD (j / 8) 0 ||| bitMask j)).getD (j / 8) 0 = out.getD (j / 8) 0 ||| bitMask j by
        simp [List.getD, show j / 8 < out.length by omega]]
      rw [BitVec.getLsbD_or, bitMask_getLsbD]
      congr 1
      simp only [decide_eq_decide]
      omega
    · rw [show (out.set (j / 8) (out.getD (j / 8) 0 ||| bitMask j)).getD (p / 8) 0 = out.getD (p / 8) 0 by
        simp [List.getD, List.getElem?_set_ne (Ne.symm hb)]]
      have : p ≠ j := by rintro rfl; exact hb rfl
      simp [this]

/-- The entry of a pair of bit positions moves the first position's bit onto the second. -/
theorem bitAt_step (k j : Nat) (inp out : List Byte) (p : Nat) (hk : k < 2048) (hj : j < 8 * out.length)
    (hj' : j < 2048) :
    bitAt (orIf ((inp.getD (entryOf k j).srcByte.toNat 0 &&& (entryOf k j).srcMask) != 0)
      (entryOf k j).dstByte.toNat (entryOf k j).dstMask out) p = (bitAt out p || (bitAt inp k && decide (p = j))) := by
  have h1 : (entryOf k j).srcByte.toNat = k / 8 := by simp [entryOf]; omega
  have h2 : (entryOf k j).dstByte.toNat = j / 8 := by simp [entryOf]; omega
  rw [h1, h2]
  exact bitAt_orIf _ j out p hj

/-- Interleaving by a table of position pairs: bit `p` of the result is set if it was set in the output, or if some pair
brings a set input bit to `p` (R83). The order of the pairs does not enter (R91). -/
theorem bitAt_interleave (pairs : List (Nat × Nat)) (inp out : List Byte) (p : Nat)
    (h : ∀ q ∈ pairs, q.1 < 2048 ∧ q.2 < 2048 ∧ q.2 < 8 * out.length) :
    bitAt (interleave (pairs.map fun q => entryOf q.1 q.2) inp out) p =
      (bitAt out p || pairs.any fun q => bitAt inp q.1 && decide (p = q.2)) := by
  unfold interleave
  induction pairs generalizing out with
  | nil => simp
  | cons q rest ih =>
    have hq := h q (by simp)
    simp only [List.map_cons, List.foldl_cons, List.any_cons]
    rw [ih]
    · rw [bitAt_step q.1 q.2 inp out p hq.1 hq.2.2 hq.2.1, Bool.or_assoc]
    · intro x hx
      simpa using h x (List.mem_cons_of_mem _ hx)

@[simp] theorem bitAt_replicate_zero (n p : Nat) : bitAt (List.replicate n 0#8) p = false := by
  rw [bitAt_eq]
  by_cases h : p / 8 < n <;> simp [List.getD, h]

/-! ## Chunks -/

@[simp] theorem perSymbol_length (f : List Entry → List Byte → List Byte → List Byte) (T : List Entry) (nb nsym : Nat)
    (buf : List Byte) (hf : ∀ T inp out, (f T inp out).length = out.length) :
    (perSymbol f T nb nsym buf).length = nsym * nb := by
  unfold perSymbol
  induction nsym with
  | zero => simp
  | succ n ih => simp_all [List.range_succ, Nat.succ_mul]

@[simp] theorem encodePacket_length (P : Params) (row : RateRow) (T : List Entry) (l : PacketLengths) (seed : Nat)
    (payload : List Byte) : (encodePacket P row T l seed payload).length = l.nsym * (row.ncbps / 8) := by
  unfold encodePacket
  exact perSymbol_length _ _ _ _ _ interleave_length

end Sys2Proof.Machine
end

