-- ==== Sys2Proof/Laws/PerInstr.lean ====
section
/-! SUPPORT. What holds of every command as syntax, one lemma per constructor. -/

namespace Sys2Proof

/-- The opcode field of a command's word (R56). -/
def Instr.opcode : Instr → Nat
  | .gentbl _ => 1
  | .ilv _ => 2
  | .dilv _ => 3
  | .clen _ _ => 4
  | .penc _ _ _ => 5
  | .pdec _ _ _ => 6
  | .brev _ => 7

namespace Laws.EncodedOpcode

/-- A well-formed command's word carries the command's opcode in bits 31:28 (R50, R56). -/
def Statement (i : Instr) : Prop := i.wf = true → field (encode i) 31 28 = i.opcode

theorem gentbl (rate : Nat) : Statement (.gentbl rate) := by
  intro h
  simp only [Instr.wf, rateFits, decide_eq_true_eq] at h
  simp only [field, encode, Instr.opcode, BitVec.toNat_ofNat]
  omega

theorem ilv (rate : Nat) : Statement (.ilv rate) := by
  intro h
  simp only [Instr.wf, rateFits, decide_eq_true_eq] at h
  simp only [field, encode, Instr.opcode, BitVec.toNat_ofNat]
  omega

theorem dilv (rate : Nat) : Statement (.dilv rate) := by
  intro h
  simp only [Instr.wf, rateFits, decide_eq_true_eq] at h
  simp only [field, encode, Instr.opcode, BitVec.toNat_ofNat]
  omega

theorem clen (rate length : Nat) : Statement (.clen rate length) := by
  intro h
  simp only [Instr.wf, rateFits, lengthFits, Bool.and_eq_true, decide_eq_true_eq] at h
  simp only [field, encode, Instr.opcode, BitVec.toNat_ofNat]
  omega

theorem penc (rate seed length : Nat) : Statement (.penc rate seed length) := by
  intro h
  simp only [Instr.wf, rateFits, seedFits, lengthFits, Bool.and_eq_true, decide_eq_true_eq] at h
  simp only [field, encode, Instr.opcode, BitVec.toNat_ofNat]
  omega

theorem pdec (rate seed length : Nat) : Statement (.pdec rate seed length) := by
  intro h
  simp only [Instr.wf, rateFits, seedFits, lengthFits, Bool.and_eq_true, decide_eq_true_eq] at h
  simp only [field, encode, Instr.opcode, BitVec.toNat_ofNat]
  omega

theorem brev (byte : Nat) : Statement (.brev byte) := by
  intro h
  simp only [Instr.wf, byteFits, decide_eq_true_eq] at h
  simp only [field, encode, Instr.opcode, BitVec.toNat_ofNat]
  omega

end Laws.EncodedOpcode

end Sys2Proof
end

