-- ==== Sys2Proof/Tests/Slice0.lean ====
section
/-! SUPPORT. The smoke test of WellFormed, words written out from the formats of R51 to R54, at most two small tests for
each command with results from spec/95_test_vectors.md, and a witness for the hypotheses of every statement. -/

namespace Sys2Proof.Tests

open Sys2Proof Sys2Proof.Machine

/-! ## WellFormed: one ill-formed term for each check -/

theorem test_wf_refuses_rate_16 : Instr.wf (.gentbl 16) = false ∧ Instr.wf (.ilv 16) = false ∧
    Instr.wf (.dilv 16) = false ∧ Instr.wf (.clen 16 0) = false ∧ Instr.wf (.penc 16 0 0) = false ∧
    Instr.wf (.pdec 16 0 0) = false := by decide

theorem test_wf_refuses_seed_128 : Instr.wf (.penc 0 128 0) = false ∧ Instr.wf (.pdec 0 128 0) = false := by decide

theorem test_wf_refuses_length_4096 : Instr.wf (.clen 0 4096) = false ∧ Instr.wf (.penc 0 0 4096) = false ∧
    Instr.wf (.pdec 0 0 4096) = false := by decide

theorem test_wf_refuses_byte_256 : Instr.wf (.brev 256) = false := by decide

/-- Row 0 of the default table (R65). -/
def row0 : RateRow := { nbpsc := 1, ncbps := 48, ndbps := 24, scheme := fecR1_2 }

/-- R8(a) and (b): `ncbps` is a multiple of 8 and of 16, and `s` divides `ncbps div 16`. -/
theorem test_wf_refuses_uninterleavable_rows : row0.wf = true ∧ interleavable 52 1 = false ∧
    interleavable 56 1 = false ∧ interleavable 64 6 = false := by decide

/-- R8(c), and the bounds R43 relies on. -/
theorem test_wf_refuses_rows_out_of_bounds : RateRow.inBounds { row0 with ndbps := 0 } = false ∧
    RateRow.inBounds { row0 with nbpsc := 0 } = false ∧ RateRow.inBounds { row0 with ncbps := 0 } = false ∧
    RateRow.inBounds { row0 with ncbps := 528 } = false ∧ RateRow.inBounds { row0 with ncbps := 304 } = false ∧
    RateRow.fitsChannelBuffer { row0 with ncbps := 288 } = false := by decide

/-- R113: the scheme's rate is the row's. -/
theorem test_wf_refuses_the_scheme_of_another_rate : RateRow.schemeAgrees { row0 with scheme := fecR3_4 } = false ∧
    RateRow.schemeAgrees { row0 with scheme := ⟨0, 0⟩ } = false ∧
    RateRow.schemeAgrees { row0 with ndbps := 96, scheme := ⟨2, 1⟩ } = false := by decide

theorem test_wf_refuses_a_table_with_a_bad_row :
    RateTable.wf (defaultRates.set 3 { row0 with ncbps := 52 }) = false := by decide

/-! ## Decoding: words written out bit by bit from R51 to R54 -/

theorem test_decode_gentbl : decode 0b00010101000000000000000000000000 = .ok (.gentbl 5) := by decide
theorem test_decode_ilv : decode 0b00100111000000000000000000000000 = .ok (.ilv 7) := by decide
theorem test_decode_dilv : decode 0b00111001000000000000000000000000 = .ok (.dilv 9) := by decide
theorem test_decode_clen : decode 0b01000110000000000000000001100100 = .ok (.clen 6 100) := by decide
theorem test_decode_penc : decode 0b01010100101110100000000000001010 = .ok (.penc 4 0x5D 10) := by decide
theorem test_decode_pdec : decode 0b01100010100000100000100000000001 = .ok (.pdec 2 0x41 0x801) := by decide
theorem test_decode_brev : decode 0b01110000000000000000000010100111 = .ok (.brev 0xA7) := by decide

/-- The illegal words of vector V12, by cause (R58, R59). -/
theorem test_decode_refuses : decode 0x00000000 = .error (.reservedOpcode 0) ∧
    decode 0x80000000 = .error (.reservedOpcode 8) ∧ decode 0xFFFFFFFF = .error (.reservedOpcode 15) ∧
    decode 0x10000001 = .error (.reservedField 1) ∧ decode 0x20800000 = .error (.reservedField 2) ∧
    decode 0x30000800 = .error (.reservedField 3) ∧ decode 0x40001000 = .error (.reservedField 4) ∧
    decode 0x50010000 = .error (.reservedField 5) ∧ decode 0x60001000 = .error (.reservedField 6) ∧
    decode 0x70000100 = .error (.reservedField 7) := by decide

theorem test_decodeTableWord : decodeTableWord 32 0x64BA000A = some (.pdec 4 0x5D 10) ∧
    decodeTableWord 32 0xF0000000 = none := by decide

/-! ## One command at a time, with the numbers of spec/95_test_vectors.md -/

/-- `STATUS`, `ERRCODE`, `ERRINFO`, `RESULT`. -/
def outcome (s : State) : Nat × Nat × Nat × Nat :=
  (s.status.toNat, s.errCode.toNat, s.errInfo.toNat, s.result.toNat)

/-- The state after the host writes a word to `CMD`; a step that stops leaves the state, which no test expects. -/
def after (w : Nat) (s : State) : State :=
  match step (s.withFetchWord 32 w) with
  | .next t => t
  | _ => s

/-- Right after reset, with bytes in `SIB` and `SOB`, their declared length, and one rate's table generated. -/
def symbolState (rate : Nat) (row : RateRow) (sib sob : List Byte) : State :=
  { ((State.reset.fillSlot rate row).setBytes .sib sib).setBytes .sob sob with
    sibLen := BitVec.ofNat 32 sib.length, sobLen := BitVec.ofNat 32 sob.length }

/-- V5. -/
theorem test_brev : outcome (after 0x700000A7 State.reset) = (1, 0, 0, 0xE5) ∧
    outcome (after 0x70000012 State.reset) = (1, 0, 0, 0x48) := by decide

/-- R77's worked example: `gentbl 5`, with the entry V6 gives for `k = 1` and V7 for `k = 191` of `(192, 4)`. -/
theorem test_gentbl : outcome (after 0x15000000 State.reset) = (1, 0, 0, 192) ∧
    (after 0x15000000 State.reset).tvalidWord = 0x20 ∧
    ((after 0x15000000 State.reset).definedEntry block 5 1).map Entry.word = some 0x00014004 ∧
    ((after 0x15000000 State.reset).definedEntry block 5 191).map Entry.word = some 0x17170102 ∧
    (after 0x15000000 State.reset).definedEntry block 5 192 = none := by decide +kernel

/-- V6, `(288, 6)`: the rotation by three of the second permutation. -/
theorem test_gentbl_entries : genEntry 288 6 15 = ⟨1, 33, 0x01, 0x02⟩ ∧ genEntry 288 6 17 = ⟨2, 2, 0x40, 0x20⟩ ∧
    genEntry 96 2 15 = ⟨1, 11, 0x01, 0x20⟩ ∧ genEntry 48 1 7 = ⟨0, 2, 0x01, 0x04⟩ := by decide

/-- R89's example: `SOB` is OR-accumulated. -/
theorem test_ilv : (let t := after 0x20000000 (symbolState 0 row0 [0x40, 0, 0, 0, 0, 0] [0x01, 0, 0, 0, 0, 0x80])
    (outcome t, t.bytes .sob 6)) = ((1, 0, 0, 6), [0x11, 0, 0, 0, 0, 0x80]) := by decide +kernel

/-- P2: `ilv 0` before the table is generated, and with `SOB_LEN = 5`. -/
theorem test_ilv_faults : outcome (after 0x20000000 State.reset) = (2, 5, 0, 0) ∧
    outcome (after 0x20000000 (symbolState 0 row0 [0x80, 0, 0, 0, 0, 1] [0, 0, 0, 0, 0])) = (2, 2, 6, 0) := by
  decide +kernel

/-- R86's example. -/
theorem test_dilv : (let t := after 0x30000000 (symbolState 0 row0 [0x10, 0, 0, 0, 0, 0] [0, 0, 0, 0, 0, 0])
    (outcome t, t.bytes .sob 6)) = ((1, 0, 0, 6), [0x40, 0, 0, 0, 0, 0]) := by decide +kernel

/-- V3 and P1: the 24-byte reference symbol, interleaved and back. -/
theorem test_reference_symbol :
    let inp : List Byte := [0x2B, 0x08, 0xA1, 0xF0, 0x9D, 0xB5, 0x9A, 0x1D, 0x4A, 0xFB, 0xE8, 0xC2, 0x8F, 0xC0, 0xC8,
      0x73, 0xC0, 0x43, 0xE0, 0x19, 0xE0, 0xD3, 0xEB, 0xB2]
    let out : List Byte := [0x77, 0xF0, 0xEF, 0xC4, 0x73, 0x00, 0xBF, 0x11, 0x10, 0x9A, 0x1D, 0x12, 0x6E, 0x38, 0xF5,
      0x69, 0x1B, 0x6B, 0x98, 0x43, 0x00, 0x0D, 0xB3, 0x6D]
    interleave (genTable 192 4) inp (List.replicate 24 0) = out ∧
    deinterleave (genTable 192 4) out (List.replicate 24 0) = inp := by decide +kernel

/-- V1 and P2. -/
theorem test_clen : outcome (after 0x46000064 State.reset) = (1, 0, 0, 180) ∧
    outcome (after 0x4100000A State.reset) = (2, 6, 3, 0) ∧ outcome (after 0x44000FFF State.reset) = (1, 0, 0, 8208) ∧
    outcome (after 0x48000000 State.reset) = (2, 1, 8, 0) := by decide +kernel

/-! ### The packet commands, with the fixtures of R118 -/

/-- The payload of P3, declared. -/
def payloadState : State :=
  { State.reset.setBytes .pb [0x01, 0x23, 0x45, 0x67, 0x89, 0xAB, 0xCD, 0xEF, 0x10, 0x32] with pbLen := 10 }

/-- The channel bits P3 lists. -/
def channelBits : List Byte :=
  [0x3F, 0xCD, 0x55, 0x13, 0x3D, 0x3C, 0xE0, 0x2F, 0x87, 0x6A, 0xA5, 0x69, 0xC0, 0x32, 0xAA, 0xEC, 0xC2, 0xC3, 0x1F,
    0xD0, 0x78, 0x95, 0x5A, 0x96] ++
  [0x00, 0x0B, 0xFF, 0x7F, 0xF0, 0x2F, 0x7E, 0x02, 0xD2, 0x66, 0x65, 0x55, 0xFF, 0xF4, 0x00, 0x80, 0x0F, 0xD0, 0x81,
    0xFD, 0x2D, 0x99, 0x9A, 0xAA]

/-- P3: `penc 4, 0x5D, 10`. -/
theorem test_penc : (let t := penc fixtures 4 0x5D 10 payloadState
    (outcome t, t.cbLen, t.tvalidWord, t.bytes .cb 48)) = ((1, 0, 0, 48), 48, 0x10, channelBits) := by decide +kernel

/-- P5: a zero-length payload into a stale `CB`. -/
theorem test_penc_over_stale_bits : (let t := penc fixtures 0 0x7F 0 (State.reset.setBytes .cb (List.replicate 8 0xFF))
    (outcome t, t.bytes .cb 8)) = ((1, 0, 0, 6), [0x52, 0x49, 0x25, 0xAD, 0xB6, 0xDA, 0xFF, 0xFF]) := by decide +kernel

/-- P3: `pdec 4, 0x5D, 10` on the channel bits. -/
theorem test_pdec : (let t := pdec fixtures 4 0x5D 10 { State.reset.setBytes .cb channelBits with cbLen := 48 }
    (outcome t, t.pbLen, t.bytes .pb 10)) =
      ((1, 0, 0, 10), 10, [0x01, 0x23, 0x45, 0x67, 0x89, 0xAB, 0xCD, 0xEF, 0x10, 0x32]) := by decide +kernel

/-- The corrupted channel bits of P4. -/
def corruptedState : State := { State.reset.setBytes .cb (channelBits.set 0 0xBF) with cbLen := 48, pbLen := 10 }

/-- P4: one flipped bit, `FecUncorrectable`. -/
theorem test_pdec_uncorrectable : (let t := pdec fixtures 4 0x5D 10 corruptedState
    (outcome t, t.pbLen, t.tvalidWord)) = ((2, 3, 0, 0), 0, 0x10) := by decide +kernel

/-! ### The host's side -/

/-- V14: the flat map, and the accesses it refuses. -/
theorem test_flat_map : resolve 0x24 4 = .ok (.reg .tvalid) ∧ resolve 0xA2FC 4 = .ok (.tbl 4 191) ∧
    resolve 0x1005 1 = .ok (.buf .pb 5) ∧ resolve 0x600F 1 = .ok (.buf .cb 8207) ∧
    resolve 0x04 1 = .error (.accessWidth 1) ∧ resolve 0x1000 4 = .error (.accessWidth 4) ∧
    resolve 0x0006 4 = .error (.misaligned 6) ∧ resolve 0x0028 4 = .error (.unmapped 0x28) := by decide

/-- V14: a byte written at the port is the byte a host read returns; reading `CMD` gives 0. -/
theorem test_host_accesses : (match core.run 2 { State.reset with
      bus := [.write (.buf .pb 5) 0xAB, .read (.buf .pb 5)], hostData := 7 } with
    | .next t => t.hostData
    | _ => 0) = 0xAB ∧ State.readReg State.reset .cmd = 0 := ⟨rfl, rfl⟩

/-- U6: the table window is read-only; a write to a read-only register is a step that changes nothing. -/
theorem test_window_write_refused :
    (match step { State.reset with bus := [.write (.tbl 4 1) 7] } with
      | .refused why => some why
      | _ => none) = some (.tableWindowWrite 4 1) ∧
    step { State.reset with bus := [.write (.reg .tvalid) 0xFF] } = .next State.reset := ⟨rfl, rfl⟩

/-- P2: an illegal word records itself. -/
theorem test_illegal_command : outcome (after 0x20000001 State.reset) = (2, 4, 0x20000001, 0) := by decide

/-! ## Witnesses: states and operands that meet the hypotheses of the statements -/

/-- The block after `gentbl 0`, with the declared lengths of one symbol. -/
def ready : State := { State.reset.fillSlot 0 row0 with sibLen := 6, sobLen := 6 }

theorem test_row0 : rateRow block 0 = some row0 := rfl

theorem reset_cacheSound : CacheSound block State.reset := by
  intro r row h hv
  have hr := rateRow_lt h
  have : (State.reset.slot r).valid = false := by interval_cases r <;> rfl
  rw [this] at hv
  cases hv

theorem ready_cacheSound : CacheSound block ready :=
  (reset_cacheSound.fillSlot test_row0).congr rfl

theorem ready_valid : (ready.slot 0).valid = true := by decide

/-- Row 7 of the default table (R65). -/
def row7 : RateRow := { nbpsc := 6, ncbps := 288, ndbps := 216, scheme := fecR3_4 }

theorem test_row7 : rateRow block 7 = some row7 := rfl

theorem row7_wf : row7.wf = true := by decide

theorem witness_DecodeOfEncodeIsTheCommand : Instr.wf (.gentbl 15) = true ∧ Instr.wf (.ilv 15) = true ∧
    Instr.wf (.dilv 15) = true ∧ Instr.wf (.clen 15 4095) = true ∧ Instr.wf (.penc 15 127 4095) = true ∧
    Instr.wf (.pdec 15 127 4095) = true ∧ Instr.wf (.brev 255) = true := by decide

theorem witness_DecodedWordsEncodeBackToThemselves : decode 0x5FFE0FFF = .ok (.penc 15 127 4095) := by decide

theorem witness_DecoderAgreesWithTheMatchAndMaskTable : (⟨"PENC", 0x50000000, 0xF001F000⟩ : OpcodeRow) ∈ opcodeMap ∧
    decode 0x5FFE0FFF = .ok (.penc 15 127 4095) := by decide

theorem witness_ReservedWordsRaiseIllegalCommand : reservedWord 0x00000000 ∧ reservedWord 0x80000000 ∧
    reservedWord 0x3F000001 ∧ reservedWord 0x40800000 ∧ reservedWord 0x50001000 ∧ reservedWord 0x78000000 ∧
    ¬ reservedWord 0x1F000000 ∧ ¬ reservedWord 0x4F000FFF ∧ ¬ reservedWord 0x6FFE0FFF ∧ ¬ reservedWord 0x700000FF := by
  refine ⟨?_, ?_, ?_, ?_, ?_, ?_, ?_, ?_, ?_, ?_⟩ <;> unfold reservedWord <;> decide

theorem witness_StepRunsTheDecodedCommand : decode 0x15000000 = .ok (.gentbl 5) := by decide

theorem witness_HostAccessesChangeOnlyWhatTheyName :
    35 < Space.sib.cap ∧ 35 < Space.sob.cap ∧ 4095 < Space.pb.cap ∧ 8207 < Space.cb.cap ∧ State.reset.bus = [] ∧
    (∃ t, step { State.reset with bus := [.read (.reg .tvalid)] } = .next t) ∧
    (∃ t, step { State.reset with bus := [.read (.buf .cb 8207)] } = .next t) ∧
    ∃ t, step { State.reset with bus := [.read (.tbl 7 511)] } = .next t :=
  ⟨by decide, by decide, by decide, by decide, rfl, ⟨_, rfl⟩, ⟨_, rfl⟩, ⟨_, rfl⟩⟩

theorem witness_HostAccessesOutsideTheRulesAreRefused :
    (¬ ∃ off, Config.base + 0x28 = Config.base + off ∧ allowedAccess off 4) ∧
    (¬ ∃ off, Config.base + 0x22 = Config.base + off ∧ allowedAccess off 4) ∧
    (¬ ∃ off, Config.base + 0x124 = Config.base + off ∧ allowedAccess off 1) ∧
    (¬ ∃ off, Config.base + 0x1000 = Config.base + off ∧ allowedAccess off 4) ∧
    (∃ off, Config.base + 0x24 = Config.base + off ∧ allowedAccess off 4) ∧
    (∃ off, Config.base + 0x600F = Config.base + off ∧ allowedAccess off 1) ∧
    (∃ off, Config.base + 0xBFFC = Config.base + off ∧ allowedAccess off 4) ∧ Space.cb.cap ≤ 8208 ∧
    (¬ ∃ off, Config.base + 0x8000 = Config.base + off ∧ allowedWrite off 4) ∧
    (¬ ∃ off, Config.base + 0xBFFC = Config.base + off ∧ allowedWrite off 4) ∧
    (∃ off, Config.base + 0x24 = Config.base + off ∧ allowedWrite off 4) ∧
    (∃ off, Config.base + 0x600F = Config.base + off ∧ allowedWrite off 1) := by
  refine ⟨?_, ?_, ?_, ?_, ⟨_, rfl, by decide⟩, ⟨_, rfl, by decide⟩, ⟨_, rfl, by decide⟩, by decide, ?_, ?_,
    ⟨_, rfl, by decide⟩, ⟨_, rfl, by decide⟩⟩ <;>
    (rintro ⟨off, e, h⟩
     obtain rfl := Nat.add_left_cancel e
     revert h
     decide)

theorem witness_FlatMapBindsTheAbstractPorts : resolve (0x0100 + 35) 1 = .ok (.buf .sib 35) ∧
    resolve (0x0140 + 35) 1 = .ok (.buf .sob 35) ∧ resolve (0x1000 + 4095) 1 = .ok (.buf .pb 4095) ∧
    resolve (0x4000 + 8207) 1 = .ok (.buf .cb 8207) ∧ resolve (0x8000 + 0x800 * 7 + 4 * 511) 4 = .ok (.tbl 7 511) ∧
    (∀ off ∈ [0x28, 0xFF, 0x124, 0x13F, 0x164, 0xFFF, 0x2000, 0x3FFF, 0x6010, 0x7FFF, 0xC000],
      resolve off 1 = .error (.unmapped off)) := by
  decide

theorem witness_RegisterReadsReturnTheRegisters : 35 < Space.sib.cap ∧ 35 < Space.sob.cap ∧ 4095 < Space.pb.cap ∧
    8207 < Space.cb.cap := by decide

theorem witness_TableWindowShowsThePackedEntry : rateRow block 0 = some row0 ∧ (ready.slot 0).valid = true ∧
    (ready.slot 0).entries[47]? = some ⟨5, 5, 0x01, 0x01⟩ ∧ row0.ncbps ≤ 48 ∧ (State.reset.slot 0).valid = false :=
  ⟨rfl, by decide, by decide +kernel, by decide, by decide⟩

theorem witness_OnlyResetClearsAValidBit : step { ready with bus := [.read (.reg .status)] } =
      .next { ready with hostData := 0 } ∧
    ([.read (.reg .status)] : List HostEvent).head? ≠ some .reset ∧ (ready.slot 0).valid = true :=
  ⟨rfl, by decide, by decide⟩

theorem witness_BrevReturnsTheReversedByteOnly : (255 : Nat) < 256 := by decide

theorem witness_TableEntriesFollowTheFormula : row7.wf = true ∧ 0 < row7.ncbps ∧ 287 < row7.ncbps := by decide

theorem witness_DestinationPositionsAreAPermutation : row7.wf = true ∧ row0.wf = true := by decide

theorem witness_GentblFillsItsSlotOnly : rateRow block 7 = some row7 ∧ rateRow block 0 = some row0 := ⟨rfl, rfl⟩

theorem witness_GentblOfAValidSlotChangesOnlyTheOutcome :
    rateRow block 0 = some row0 ∧ CacheSound block ready ∧ (ready.slot 0).valid = true :=
  ⟨rfl, ready_cacheSound, ready_valid⟩

theorem witness_TransformsMoveBitsAsTheTableSays :
    row7.wf = true ∧ (List.replicate 36 (0xA5 : Byte)).length = row7.ncbps / 8 ∧ 287 < row7.ncbps := by decide

theorem witness_DeinterleavingInvertsInterleaving :
    row0.wf = true ∧ ([0x2B, 0x08, 0xA1, 0xF0, 0x9D, 0xB5] : List Byte).length = row0.ncbps / 8 := by decide

theorem witness_EntryOrderDoesNotMatter : List.Perm (genTable 48 1) (genTable 48 1).reverse :=
  (List.reverse_perm _).symm

/-- For `ILV`, `DILV` (R85, R86) and the statement about each coded bit. -/
theorem witness_SymbolCommandsMoveEachCodedBit : rateRow block 0 = some row0 ∧ CacheSound block ready ∧
    (ready.slot 0).valid = true ∧ ready.sibLen.toNat = row0.ncbps / 8 ∧ ready.sobLen.toNat = row0.ncbps / 8 :=
  ⟨rfl, ready_cacheSound, ready_valid, rfl, rfl⟩

theorem witness_IlvInterleavesOneSymbolIntoSob : rateRow block 0 = some row0 ∧ (ready.slot 0).valid = true ∧
    ready.sibLen.toNat = row0.ncbps / 8 ∧ ready.sobLen.toNat = row0.ncbps / 8 ∧ (ready.slot 7).valid = false ∧
    (State.sobLen { ready with sobLen := 5 }).toNat ≠ row0.ncbps / 8 :=
  ⟨rfl, ready_valid, rfl, rfl, by decide, by decide⟩

theorem witness_DilvDeinterleavesOneSymbolIntoSob : rateRow block 0 = some row0 ∧ (ready.slot 0).valid = true ∧
    ready.sibLen.toNat = row0.ncbps / 8 ∧ ready.sobLen.toNat = row0.ncbps / 8 ∧ (ready.slot 7).valid = false ∧
    (State.sibLen { ready with sibLen := 7 }).toNat ≠ row0.ncbps / 8 :=
  ⟨rfl, ready_valid, rfl, rfl, by decide, by decide⟩

theorem witness_SymbolCommandsFaultWithoutATable :
    ((State.reset.slot 0).valid = false ∧ (State.reset.slot 7).valid = false ∧ (ready.slot 1).valid = false) ∧
    ∃ t, exec (.dilv 7) State.reset = .next t ∧ t.errCode = 5 := ⟨by decide, _, rfl, by decide⟩

theorem witness_ExactLengthsAreWholeSymbols : row7.wf = true ∧ exactFor row7 0 ∧ exactFor row7 4095 ∧
    ¬ exactFor { nbpsc := 1, ncbps := 48, ndbps := 36, scheme := fecR3_4 } 0 := by decide

theorem witness_TailByteLiesInsideTheMessage : row0.wf = true ∧ exactFor row0 0 ∧ exactFor row0 4095 := by decide

theorem witness_EveryPacketFitsItsBuffers : rateRow block 7 = some row7 ∧ exactFor row7 4095 := ⟨rfl, by decide⟩

theorem witness_ClenReturnsTheEncodedLengthOnly :
    rateRow block 0 = some row0 ∧ (16 + 8 * 4095 + 6 + row0.ndbps - 1) / row0.ndbps * row0.ndbps % 8 = 0 ∧
    (∃ row, rateRow block 1 = some row ∧ (16 + 8 * 0 + 6 + row.ndbps - 1) / row.ndbps * row.ndbps % 8 ≠ 0) :=
  ⟨rfl, by decide, _, rfl, by decide⟩

/-- P5: one answer of each kind from the fixtures' decoder (R103). -/
theorem witness_DecodingRunsTheStepsInReverse :
    fixtures.collab.fecDec fecR1_2 3 [0x7F, 0x80, 0x80, 0x7F, 0x01, 0xFE] = .ok [0x7F, 0x80, 0x01] ∧
    fixtures.collab.fecDec fecR1_2 3 [0x7F, 0x80, 0x80, 0x7F, 0x01, 0xFF] = .uncorrectable ∧
    0 + 2 ≤ ([0x7F, 0x80, 0x01] : List Byte).length ∧ 0 < (packetLengths 24 48 0).nsym := by decide

theorem witness_MessageIsServicePayloadAndZeros : ([] : List Byte).length + 2 ≤ 3 ∧
    ([0x01, 0x23] : List Byte).length + 2 ≤ 6 := by decide

theorem witness_TailBitsAreZeroForEverySeed : ([] : List Byte).length + 2 < 3 ∧
    ([0x01, 0x23] : List Byte).length + 2 < 6 := by decide

theorem witness_EachSymbolIsInterleavedOnItsOwn : 1365 < (packetLengths row0.ndbps row0.ncbps 4095).nsym := by decide

theorem witness_PencWritesTheEncodedPacket : rateRow block 4 = some
      { nbpsc := 4, ncbps := 192, ndbps := 96, scheme := fecR1_2 } ∧
    exactFor { nbpsc := 4, ncbps := 192, ndbps := 96, scheme := fecR1_2 } 10 ∧ payloadState.pbLen.toNat = 10 ∧
    (payloadState.slot 4).valid = false ∧ rateRow block 0 = some row0 ∧ exactFor row0 0 ∧ ready.pbLen.toNat = 0 ∧
    (ready.slot 0).valid = true ∧ exactFor row0 1 ∧ ready.pbLen.toNat ≠ 1 ∧
    ∃ row, rateRow block 1 = some row ∧ ¬ exactFor row 0 :=
  ⟨rfl, by decide, by decide, by decide, rfl, by decide, rfl, ready_valid, by decide, by decide, _, rfl, by decide⟩

theorem witness_PdecWritesThePayloadOrReportsUncorrectable : rateRow block 4 = some
      { nbpsc := 4, ncbps := 192, ndbps := 96, scheme := fecR1_2 } ∧
    exactFor { nbpsc := 4, ncbps := 192, ndbps := 96, scheme := fecR1_2 } 10 ∧ corruptedState.cbLen.toNat =
      (packetLengths 96 192 10).encMsgLen ∧ (corruptedState.slot 4).valid = false ∧
    rateRow block 0 = some row0 ∧ exactFor row0 0 ∧
    (State.cbLen { ready with cbLen := 6 }).toNat = (packetLengths row0.ndbps row0.ncbps 0).encMsgLen ∧
    ready.cbLen.toNat ≠ (packetLengths row0.ndbps row0.ncbps 0).encMsgLen ∧
    ∃ row, rateRow block 1 = some row ∧ ¬ exactFor row 0 :=
  ⟨rfl, by decide, by decide, by decide, rfl, by decide, by decide, by decide, _, rfl, by decide⟩

/-- P4: a state and a configuration in which the decoder answers `Uncorrectable`. -/
theorem witness_UncorrectablePacketsAreReportedAndNotWritten :
    let row : RateRow := { nbpsc := 4, ncbps := 192, ndbps := 96, scheme := fecR1_2 }
    let l := packetLengths row.ndbps row.ncbps 10
    rateRow fixtures 4 = some row ∧ exactFor row 10 ∧ corruptedState.cbLen.toNat = l.encMsgLen ∧
    decodePacket fixtures row ((corruptedState.ensureTable 4 row).table 4 row.ncbps) l 0x5D 10
      (corruptedState.bytes .cb l.encMsgLen) = .uncorrectable := ⟨rfl, by decide, by decide, by decide +kernel⟩

/-- The state after `PENC` is itself one in which `PDEC` can be issued. -/
theorem witness_PdecRecoversWhatPencEncoded : rateRow block 0 = some row0 ∧ exactFor row0 0 ∧ ready.pbLen.toNat = 0 ∧
    CacheSound block ready ∧ ∃ t, exec (.penc 0 0 0) ready = .next t ∧ CacheSound block t := by
  refine ⟨rfl, by decide, rfl, ready_cacheSound, _, rfl, ?_⟩
  obtain ⟨-, h⟩ | ⟨row, hr, ⟨-, h⟩ | ⟨-, -, h⟩ | ⟨-, -, h⟩⟩ := penc_cases block 0 0 0 ready <;> rw [h]
  case inr.inr.inr => exact (ready_cacheSound.ensureTable hr).congr (by simp)
  all_goals exact ready_cacheSound.congr (by simp)

theorem witness_DecodingInvertsEncodingInEveryConfiguration :
    fixtures.rates.wf = true ∧ rateRow fixtures 7 = some row7 ∧ exactFor row7 ([0x01, 0x23] : List Byte).length :=
  ⟨by decide, rfl, by decide⟩

theorem witness_OldChannelBitsNeverEnterAPacket : rateRow block 0 = some row0 ∧ exactFor row0 0 ∧
    State.reset.pbLen.toNat = 0 ∧ State.SameButBuffers State.reset (State.reset.setByte .cb 0 0xFF) ∧
    ∀ i, (State.reset.setByte .cb 0 0xFF).byte .pb i = State.reset.byte .pb i :=
  ⟨rfl, by decide, rfl, rfl, fun i => State.byte_setByte_other _ (by simp)⟩

theorem witness_UnsupportedRatesFaultBeforeAnythingElse : (8 ≤ 8 ∧ 8 ≤ 15) ∧ (8 ≤ 15 ∧ 15 ≤ 15) := by decide

theorem witness_WrongDeclaredLengthsFault : rateRow block 0 = some row0 ∧ (ready.slot 0).valid = true ∧
    State.sibLen { ready with sibLen := 5 } ≠ 6 ∧ State.sobLen { ready with sobLen := 7 } ≠ 6 ∧ exactFor row0 1 ∧
    ready.pbLen.toNat ≠ 1 ∧ ready.cbLen.toNat ≠ (packetLengths row0.ndbps row0.ncbps 1).encMsgLen :=
  ⟨rfl, ready_valid, by decide, by decide, by decide, by decide, by decide⟩

theorem witness_InexactLengthsFault :
    rateRow block 1 = some { nbpsc := 1, ncbps := 48, ndbps := 36, scheme := fecR3_4 } ∧
    (16 + 8 * 0 + 6 + 36 - 1) / 36 * 36 % 8 ≠ 0 := ⟨rfl, by decide⟩

theorem no_command_of_zero : ∀ i, decode 0x00000000 ≠ .ok i := by
  rw [show decode 0x00000000 = .error (.reservedOpcode 0) by decide]
  intro i h
  cases h

theorem witness_FaultsComeOnlyFromTheCommandsOfTheTable : (∀ i, decode 0x00000000 ≠ .ok i) ∧
    ∃ t, exec (.gentbl 8) State.reset = .next t ∧ t.errCode = 1 := ⟨no_command_of_zero, _, rfl, rfl⟩

theorem witness_FaultingCommandsChangeNothingElse : (∀ i, decode 0x00000000 ≠ .ok i) ∧
    (∃ t, exec (.gentbl 8) State.reset = .next t ∧ t.status = 2) ∧
    (∃ t, exec (.penc 8 0 0) State.reset = .next t ∧ t.status = 2) ∧
    ∃ t, exec (.pdec 15 0 0) State.reset = .next t ∧ t.status = 2 :=
  ⟨no_command_of_zero, ⟨_, rfl, rfl⟩, ⟨_, rfl, rfl⟩, ⟨_, rfl, rfl⟩⟩

theorem witness_RepeatingACommandChangesNothingMore :
    State.reset.mem.wf = true ∧ ∃ t, exec (.brev 1) State.reset = .next t := ⟨rfl, _, rfl⟩

theorem witness_CommandsWriteOnlyWhatTheirRuleNames : ∃ t, exec (.gentbl 0) State.reset = .next t := ⟨_, rfl⟩

theorem witness_EveryStepKeepsTheInvariant : ready.Inv ∧ ∃ t, step (ready.withFetchWord 32 0x20000000) = .next t :=
  ⟨⟨.inl ⟨rfl, rfl, rfl, rfl⟩, ready_cacheSound, rfl⟩, _, rfl⟩

/-- R118: inputs of each kind, of the lengths the statement asks for. -/
theorem witness_FixturesFollowTheirFormulas : ([0x7F, 0x80, 0x01] : List Byte).length = 3 ∧
    ([0x7F, 0x80, 0x80, 0x7F, 0x01, 0xFE] : List Byte).length = 2 * 3 ∧
    (∀ i, i < 3 → ([0x7F, 0x80, 0x80, 0x7F, 0x01, 0xFE] : List Byte).getD (2 * i + 1) 0 =
      ([0x7F, 0x80, 0x80, 0x7F, 0x01, 0xFE] : List Byte).getD (2 * i) 0 ^^^ 0xFF) ∧
    ([0x7F, 0x81] : List Byte).length = 2 * 1 ∧
    ∃ i, i < 1 ∧ ([0x7F, 0x81] : List Byte).getD (2 * i + 1) 0 ≠ ([0x7F, 0x81] : List Byte).getD (2 * i) 0 ^^^ 0xFF :=
  ⟨rfl, rfl, by decide, rfl, 0, by decide, by decide⟩

theorem witness_EveryHostScheduleKeepsTheInvariant : ∃ t,
    core.run 2 { State.reset with bus := [.write (.reg .cmd) 0x10000000, .reset] } = .next t := ⟨_, rfl⟩

end Sys2Proof.Tests
end

section
/-! PROOFS. The invariant of Safety.lean through every command, host access and step (O58, O59), and the register
`TVALID` bit by bit (O9). -/

namespace Sys2Proof.Machine

/-! ## The invariant at reset -/

/-- No slot is valid after reset (R30). -/
theorem State.slot_reset_valid (r : Nat) : (State.reset.slot r).valid = false := by
  by_cases h : r < 8 <;> simp [State.slot, State.reset, emptySlot, h]

theorem State.reset_inv : State.reset.Inv where
  outcome := .inl ⟨rfl, rfl, rfl, rfl⟩
  cache := fun r _ _ hv => absurd hv (by simp [State.slot_reset_valid r])
  memory := Memory.reset_wf

theorem resetBlock_inv (s : State) : (resetBlock s).Inv :=
  ⟨State.reset_inv.outcome, State.reset_inv.cache, State.reset_inv.memory⟩

/-! ## The invariant at the exit of a command

A command's exit writes all the outcome registers, so only the cache and the buffer memory before it matter. -/

theorem complete_inv {s : State} (hc : CacheSound block s) (hm : s.mem.wf = true) : (complete s).Inv :=
  ⟨.inr (.inl ⟨rfl, rfl, rfl⟩), hc, hm⟩

/-- The codes of R120 are 1 to 6. -/
theorem CommandFault.code_bounds (f : CommandFault) : 1 ≤ f.code.toNat ∧ f.code.toNat ≤ 6 := by
  cases f <;> simp [CommandFault.code]

theorem raiseFault_inv (f : CommandFault) (c : Option Space) {s : State} (hc : CacheSound block s)
    (hm : s.mem.wf = true) : (raiseFault f c s).Inv where
  outcome := .inr (.inr (by simpa using f.code_bounds))
  cache := hc.congr (by simp)
  memory := by simpa using hm

/-! ## The invariant through every command -/

theorem gentbl_inv (rate : Nat) {s : State} (hs : s.Inv) : (gentbl block rate s).Inv := by
  rcases gentbl_cases block rate s with ⟨-, h⟩ | ⟨row, hrow, h⟩ <;> rw [h]
  · exact raiseFault_inv _ _ hs.cache hs.memory
  · exact complete_inv (hs.cache.fillSlot hrow) hs.memory

theorem symbolCommand_inv (f : List Entry → List Byte → List Byte → List Byte) (rate : Nat) {s : State} (hs : s.Inv) :
    (symbolCommand block f rate s).Inv := by
  rcases symbolCommand_cases block f rate s with ⟨-, h⟩ | ⟨-, -, h⟩ | ⟨row, -, -, ⟨-, h⟩ | ⟨-, -, h⟩⟩ <;> rw [h]
  · exact raiseFault_inv _ _ hs.cache hs.memory
  · exact raiseFault_inv _ _ hs.cache hs.memory
  · exact raiseFault_inv _ _ hs.cache hs.memory
  · exact complete_inv (hs.cache.congr (by simp)) (State.setBytes_wf _ _ _ hs.memory)

theorem clen_inv (rate length : Nat) {s : State} (hs : s.Inv) : (clen block rate length s).Inv := by
  rcases clen_cases block rate length s with ⟨-, h⟩ | ⟨row, -, ⟨-, h⟩ | ⟨-, h⟩⟩ <;> rw [h]
  · exact raiseFault_inv _ _ hs.cache hs.memory
  · exact raiseFault_inv _ _ hs.cache hs.memory
  · exact complete_inv hs.cache hs.memory

/-- The exit of a packet command: the table ensured, a buffer and its length register written. -/
theorem complete_packet_inv {s : State} (hs : s.Inv) {rate : Nat} {row : RateRow}
    (hrow : rateRow block rate = some row) (sp : Space) (bytes : List Byte) (len : Word) (n : Nat) :
    (complete ((((s.ensureTable rate row).setBytes sp bytes).setLen sp len).setResult n)).Inv :=
  complete_inv ((hs.cache.ensureTable hrow).congr (by simp))
    (by simpa using State.setBytes_wf (s.ensureTable rate row) sp bytes (by simpa using hs.memory))

theorem penc_inv (rate seed length : Nat) {s : State} (hs : s.Inv) : (penc block rate seed length s).Inv := by
  rcases penc_cases block rate seed length s with ⟨-, h⟩ | ⟨row, hrow, ⟨-, h⟩ | ⟨-, -, h⟩ | ⟨-, -, h⟩⟩ <;> rw [h]
  · exact raiseFault_inv _ _ hs.cache hs.memory
  · exact raiseFault_inv _ _ hs.cache hs.memory
  · exact raiseFault_inv _ _ hs.cache hs.memory
  · exact complete_packet_inv hs hrow _ _ _ _

theorem pdec_inv (rate seed length : Nat) {s : State} (hs : s.Inv) : (pdec block rate seed length s).Inv := by
  rcases pdec_cases block rate seed length s with
    ⟨-, h⟩ | ⟨row, hrow, ⟨-, h⟩ | ⟨-, -, h⟩ | ⟨-, -, -, h⟩ | ⟨-, -, payload, -, h⟩⟩ <;> rw [h]
  · exact raiseFault_inv _ _ hs.cache hs.memory
  · exact raiseFault_inv _ _ hs.cache hs.memory
  · exact raiseFault_inv _ _ hs.cache hs.memory
  · exact raiseFault_inv _ _ (hs.cache.ensureTable hrow) (by simpa using hs.memory)
  · exact complete_packet_inv hs hrow _ _ _ _

theorem brev_inv (byte : Nat) {s : State} (hs : s.Inv) : (brev byte s).Inv := complete_inv hs.cache hs.memory

/-- Every command answers a next state, and it is a good one. -/
theorem exec_inv (i : Instr) {s : State} (hs : s.Inv) : ∃ t, exec i s = .next t ∧ t.Inv := by
  cases i with
  | gentbl rate => exact ⟨_, rfl, gentbl_inv rate hs⟩
  | ilv rate => exact ⟨_, rfl, symbolCommand_inv _ rate hs⟩
  | dilv rate => exact ⟨_, rfl, symbolCommand_inv _ rate hs⟩
  | clen rate length => exact ⟨_, rfl, clen_inv rate length hs⟩
  | penc rate seed length => exact ⟨_, rfl, penc_inv rate seed length hs⟩
  | pdec rate seed length => exact ⟨_, rfl, pdec_inv rate seed length hs⟩
  | brev byte => exact ⟨_, rfl, brev_inv byte hs⟩

theorem runCommand_inv (w : Word) {s t : State} (hs : s.Inv) (h : runCommand w s = .next t) : t.Inv := by
  unfold runCommand at h
  split at h
  · next i _ =>
    obtain ⟨u, hu, hinv⟩ := exec_inv i hs
    cases hu.symm.trans h
    exact hinv
  · cases h
    exact raiseFault_inv _ _ hs.cache hs.memory

/-! ## What a host access can answer -/

/-- A host read that is answered changes the model's own fields only: the value read and the draw counter (R33). -/
theorem readPort_next {P : Params} {p : Port} {s t : State} (h : readPort P p s = .next t) :
    t = { s with hostData := t.hostData, draws := t.draws } := by
  unfold readPort at h
  split at h
  · cases h
  · cases h; rfl
  · cases h; rfl
  · cases h
    unfold readTable
    split <;> rfl

/-- A host write that is answered runs a command, stores a length register or a buffer byte, or is ignored (R33). -/
theorem writePort_next {p : Port} {v : Word} {s t : State} (h : writePort p v s = .next t) :
    (p = .reg .cmd ∧ runCommand v s = .next t) ∨ (∃ sp, t = s.setLen sp v) ∨
    (∃ sp i, p = .buf sp i ∧ i < sp.cap ∧ t = s.setByte sp i (v.setWidth 8)) ∨ t = s := by
  cases p with
  | reg r =>
    change writeReg r v s = .next t at h
    cases r with
    | cmd => exact .inl ⟨rfl, h⟩
    | pbLen => cases h; exact .inr (.inl ⟨.pb, rfl⟩)
    | cbLen => cases h; exact .inr (.inl ⟨.cb, rfl⟩)
    | sibLen => cases h; exact .inr (.inl ⟨.sib, rfl⟩)
    | sobLen => cases h; exact .inr (.inl ⟨.sob, rfl⟩)
    | status | errCode | errInfo | result | tvalid => cases h; exact .inr (.inr (.inr rfl))
  | buf sp i =>
    by_cases hi : i < sp.cap
    · simp only [writePort, Port.refusal_buf hi] at h
      cases h
      exact .inr (.inr (.inl ⟨sp, i, rfl, hi, rfl⟩))
    · simp [writePort, Port.refusal, hi] at h
  | tbl r k =>
    obtain ⟨why, hw⟩ := writePort_tbl r k v s
    cases hw.symm.trans h

/-- An event that is answered is a read or a write through some port, or a reset (R33, R45, R134). -/
theorem hostEvent_next {P : Params} {e : HostEvent} {s t : State} (h : hostEvent P e s = .next t) :
    (∃ p, readPort P p s = .next t) ∨ (∃ p v, writePort p v s = .next t) ∨ (e = .reset ∧ t = resetBlock s) := by
  cases e with
  | read p => exact .inl ⟨p, h⟩
  | write p v => exact .inr (.inl ⟨p, v, h⟩)
  | memRead addr n =>
    simp only [hostEvent] at h
    split at h
    · exact .inl ⟨_, h⟩
    · cases h
  | memWrite addr n v =>
    simp only [hostEvent] at h
    split at h
    · exact .inr (.inl ⟨_, v, h⟩)
    · cases h
  | reset => cases h; exact .inr (.inr ⟨rfl, rfl⟩)

/-- A step that is answered is idle, or consumes the first event (R33, R47). -/
theorem step_next {s t : State} (h : step s = .next t) :
    (s.bus = [] ∧ t = s) ∨ ∃ e rest, s.bus = e :: rest ∧ hostEvent block e { s with bus := rest } = .next t := by
  unfold step at h
  split at h
  · next hb => cases h; exact .inl ⟨hb, rfl⟩
  · next e rest hb => exact .inr ⟨e, rest, hb, h⟩

/-! ## The invariant through every step -/

/-- The invariant speaks of no field of the host's side. -/
theorem State.Inv.withHost {s : State} (hs : s.Inv) (bus : List HostEvent) (data : Word) (draws : Nat) :
    { s with bus := bus, hostData := data, draws := draws }.Inv := ⟨hs.outcome, hs.cache, hs.memory⟩

theorem State.Inv.setLen {s : State} (hs : s.Inv) (sp : Space) (v : Word) : (s.setLen sp v).Inv where
  outcome := by simpa [OutcomeLegal] using hs.outcome
  cache := hs.cache.congr (by simp)
  memory := by simpa using hs.memory

theorem State.Inv.setByte {s : State} (hs : s.Inv) (sp : Space) (i : Nat) (v : Byte) : (s.setByte sp i v).Inv where
  outcome := by simpa [OutcomeLegal] using hs.outcome
  cache := hs.cache.congr (by simp)
  memory := State.setByte_wf s sp i v hs.memory

theorem hostEvent_inv {e : HostEvent} {s t : State} (hs : s.Inv) (h : hostEvent block e s = .next t) : t.Inv := by
  rcases hostEvent_next h with ⟨p, hr⟩ | ⟨p, v, hw⟩ | ⟨-, rfl⟩
  · rw [readPort_next hr]
    exact hs.withHost _ _ _
  · rcases writePort_next hw with ⟨-, hc⟩ | ⟨sp, rfl⟩ | ⟨sp, i, -, -, rfl⟩ | rfl
    · exact runCommand_inv v hs hc
    · exact hs.setLen sp v
    · exact hs.setByte sp i _
    · exact hs
  · exact resetBlock_inv s

/-- Settles O58: an idle step changes nothing, and every host event keeps the invariant. -/
theorem everyStepKeepsTheInvariant : Obligations.EveryStepKeepsTheInvariant := by
  intro s t hs h
  rcases step_next h with ⟨-, rfl⟩ | ⟨e, rest, -, he⟩
  · exact hs
  · exact hostEvent_inv (hs.withHost rest _ _) he

theorem run_inv (n : Nat) {s t : State} (hs : s.Inv) (h : core.run n s = .next t) : t.Inv := by
  induction n generalizing s with
  | zero => cases h; exact hs
  | succ n ih =>
    simp only [Host.Core.run] at h
    split at h
    · next u hu => exact ih (everyStepKeepsTheInvariant s u hs hu) h
    · cases h
    · cases h

/-- Settles O59, by induction on the number of steps from the reset state. -/
theorem everyHostScheduleKeepsTheInvariant : Obligations.EveryHostScheduleKeepsTheInvariant :=
  fun schedule n _ h => run_inv n (State.reset_inv.withHost schedule _ _) h

/-! ## The register `TVALID` -/

/-- A sum of distinct powers of two has exactly the bits it was summed from. -/
theorem testBit_sum_two_pow (f : Nat → Bool) (n b : Nat) :
    (((List.range n).map fun r => if f r then 2 ^ r else 0).sum).testBit b = (decide (b < n) && f b) := by
  induction n generalizing b with
  | zero => simp
  | succ n ih =>
    have hlt : ((List.range n).map fun r => if f r then 2 ^ r else 0).sum < 2 ^ n :=
      Nat.lt_pow_two_of_testBit _ fun i hi => by simp [ih, hi]
    have hor := Nat.two_pow_add_eq_or_of_lt hlt (f n).toNat
    have hterm : (if f n then 2 ^ n else 0) = 2 ^ n * (f n).toNat := by cases f n <;> simp
    rw [List.range_succ, List.map_append, List.sum_append, List.map_singleton, List.sum_singleton, hterm, Nat.add_comm,
      hor, Nat.testBit_or, ih, ← hterm]
    rcases Nat.lt_trichotomy b n with h | rfl | h
    · cases f n <;> simp [h, show b < n + 1 by omega, Nat.ne_of_gt h]
    · cases f b <;> simp
    · cases f n <;> simp [Nat.ne_of_lt h, show ¬ b < n + 1 by omega, show ¬ b < n by omega]

/-- R23: bit `r` is `TVALID[r]`, bits 31:8 are 0. -/
theorem State.tvalidWord_getLsbD (s : State) {b : Nat} (hb : b < 32) :
    s.tvalidWord.getLsbD b = (decide (b < 8) && (s.slot b).valid) := by
  rw [State.tvalidWord, BitVec.getLsbD_ofNat, testBit_sum_two_pow fun r => (s.slot r).valid]
  simp [hb]

/-- Addresses are offsets from `BASE` (R45). -/
theorem resolveAddress_base_add (off n : Nat) : resolveAddress (Config.base + off) n = resolve off n := by
  simp [resolveAddress]

theorem resolve_tvalid : resolve 0x24 4 = .ok (.reg .tvalid) := rfl

/-- Settles O9: the address resolves to the register `TVALID`, whose read value is `tvalidWord` and whose write is
ignored. -/
theorem tvalidRegisterShowsTheValidBits : Obligations.TvalidRegisterShowsTheValidBits := by
  intro s rest v
  have hport : resolveAddress (Config.base + 0x24) 4 = .ok (.reg .tvalid) :=
    (resolveAddress_base_add _ _).trans resolve_tvalid
  constructor
  · refine ⟨{ s with bus := rest, hostData := s.tvalidWord }, ?_, fun b hb => s.tvalidWord_getLsbD hb⟩
    simp only [step, hostEvent, hport]
    rfl
  · simp only [step, hostEvent, hport]
    rfl

end Sys2Proof.Machine
end

section
/-! PROOFS. The flat address map binds the abstract ports (O11). -/

namespace Sys2Proof.Machine

/-! ## What the offsets of R45 resolve to -/

theorem resolve_buf {sp : Space} {i : Nat} (h : i < sp.cap) : resolve (sp.base + i) 1 = .ok (.buf sp i) := by
  have hregion : regionOf (sp.base + i) = some (.buffer sp) := regionOf_buffer ⟨by omega, by omega⟩
  simp [resolve, hregion]

/-- An entry of the window is a multiple of 4, and its rate and index are the digits of its offset. -/
theorem resolve_tbl {r k : Nat} (hr : r < 8) (hk : k < 512) :
    resolve (0x8000 + 0x800 * r + 4 * k) 4 = .ok (.tbl r k) := by
  have hregion : regionOf (0x8000 + 0x800 * r + 4 * k) = some .tableWindow := regionOf_tableWindow (by omega)
  have haligned : (0x8000 + 0x800 * r + 4 * k) % 4 = 0 := by omega
  have hrate : (0x8000 + 0x800 * r + 4 * k - 0x8000) / 0x800 = r := by omega
  have hentry : (0x8000 + 0x800 * r + 4 * k - 0x8000) % 0x800 / 4 = k := by omega
  simp only [resolve, hregion, wordAccess, haligned, hrate, hentry]
  rfl

theorem resolve_unmapped {off : Nat} (h : regionOf off = none) (n : Nat) : resolve off n = .error (.unmapped off) := by
  simp [resolve, h]

/-! ## Flat accesses as steps -/

/-- The flat read and the flat write at this offset are the accesses through the port: the binding of R45. -/
def BindsPort (s : State) (rest : List HostEvent) (v : Word) (off n : Nat) (p : Port) : Prop :=
  step { s with bus := .memRead (Config.base + off) n :: rest } = step { s with bus := .read p :: rest } ∧
  step { s with bus := .memWrite (Config.base + off) n v :: rest } = step { s with bus := .write p v :: rest }

theorem bindsPort_of_resolve {off n : Nat} {p : Port} (h : resolve off n = .ok p) (s : State) (rest : List HostEvent)
    (v : Word) : BindsPort s rest v off n p := by
  simp only [BindsPort, step, hostEvent, resolveAddress_base_add, h, and_self]

theorem step_flat_of_refused {off n : Nat} {why : Refusal} (h : resolve off n = .error why) (s : State)
    (rest : List HostEvent) (v : Word) :
    step { s with bus := .memRead (Config.base + off) n :: rest } = .refused why ∧
    step { s with bus := .memWrite (Config.base + off) n v :: rest } = .refused why := by
  simp only [step, hostEvent, resolveAddress_base_add, h, and_self]

/-- Settles O11: every listed offset resolves to its port, every offset between the regions to none. -/
theorem flatMapBindsTheAbstractPorts : Obligations.FlatMapBindsTheAbstractPorts := by
  refine ⟨Nat.mul_mod_right _ _, fun s rest v => ?_⟩
  have binds {off n : Nat} {p : Port} (h : resolve off n = .ok p) : BindsPort s rest v off n p :=
    bindsPort_of_resolve h s rest v
  refine ⟨⟨binds rfl, binds rfl, binds rfl, binds rfl, binds rfl, binds rfl, binds rfl, binds rfl, binds rfl,
    binds rfl⟩, fun i hi => ⟨binds (resolve_buf (sp := .sib) hi), binds (resolve_buf (sp := .sob) hi)⟩,
    fun i hi => binds (resolve_buf (sp := .pb) hi), fun i hi => binds (resolve_buf (sp := .cb) hi),
    fun r k hr hk => binds (resolve_tbl hr hk), fun off n hgap => ?_⟩
  have hbuf (sp : Space) : ¬ (sp.base ≤ off ∧ off < sp.base + sp.cap) := by
    cases sp <;> simp only [Space.base, Space.cap, Config.pbCap, Config.cbCap, Config.symCap] <;> omega
  exact step_flat_of_refused (resolve_unmapped (regionOf_unmapped (by omega) hbuf (by omega)) n) s rest v

end Sys2Proof.Machine
end

section
/-! PROOFS. Every packet of the default rate table fits its buffers (O35). -/

namespace Sys2Proof.Machine

theorem ceilDiv_mono {a b : Nat} (h : a ≤ b) (n : Nat) : ceilDiv a n ≤ ceilDiv b n :=
  Nat.div_le_div_right (by omega)

/-- The encoded packet has at most `nsym` symbols of `ncbps div 8` bytes, exact divisions (R94) or not. -/
theorem encMsgLen_le (row : RateRow) (length : Nat) (h : row.ncbps % 16 = 0) :
    (packetLengths row.ndbps row.ncbps length).encMsgLen ≤
      (packetLengths row.ndbps row.ncbps length).nsym * (row.ncbps / 8) := by
  simp only [packetLengths]
  generalize ceilDiv (16 + 8 * length + 6) row.ndbps = nsym
  have hbytes : row.ncbps = 8 * (row.ncbps / 8) := by omega
  apply Nat.div_le_of_le_mul
  calc nsym * row.ndbps / 8 * row.ncbps
      = nsym * row.ndbps / 8 * 8 * (row.ncbps / 8) := by rw [Nat.mul_assoc, ← hbytes]
    _ ≤ nsym * row.ndbps * (row.ncbps / 8) := Nat.mul_le_mul_right _ (Nat.div_mul_le_self _ _)
    _ = row.ndbps * (nsym * (row.ncbps / 8)) := by ring

/-- R43 for every well-formed row: the longest payload bounds the number of symbols, and its packet fits `CB`. -/
theorem encMsgLen_le_cbCap {row : RateRow} (hrow : row.wf = true) {length : Nat} (h : length ≤ 4095) :
    (packetLengths row.ndbps row.ncbps length).encMsgLen ≤ Config.cbCap := by
  obtain ⟨-, h16, -, -, -, hcap, -⟩ := RateRow.wf_bounds hrow
  have hsym : (packetLengths row.ndbps row.ncbps length).nsym ≤ ceilDiv 32782 row.ndbps := ceilDiv_mono (by omega) _
  calc (packetLengths row.ndbps row.ncbps length).encMsgLen
      ≤ (packetLengths row.ndbps row.ncbps length).nsym * (row.ncbps / 8) := encMsgLen_le row length h16
    _ ≤ ceilDiv 32782 row.ndbps * (row.ncbps / 8) := Nat.mul_le_mul_right _ hsym
    _ ≤ Config.cbCap := hcap

/-- The default table meets the constraints of R8. -/
theorem block_rates_wf : block.rates.wf = true := by decide

/-- Settles O35: the rows of the block's table are well formed. -/
theorem everyPacketFitsItsBuffers : Obligations.EveryPacketFitsItsBuffers := by
  intro rate row length hrow hlen _
  exact ⟨encMsgLen_le_cbCap (RateTable.row_wf block_rates_wf hrow) hlen, by omega⟩

end Sys2Proof.Machine
end

section
/-! PROOFS. Repeating a command at once changes nothing more (O55): a byte written again, a table ensured again, a bit
ORed again and a fault recorded again each leave what is there. -/

namespace Sys2Proof.Machine

/-! ## Bytes written again -/

theorem putCell_eq_self {off : Nat} {v : Byte} {cells : List Host.Cell} (hr : risingCells cells = true)
    (h : findCell off cells = some v) : putCell off v cells = cells := by
  refine cells_ext (risingCells_putCell off v cells hr) hr fun other => ?_
  by_cases ho : off = other
  · subst ho
    rw [findCell_putCell_same, h]
  · exact findCell_putCell_other ho v cells

theorem State.setByte_eq_self {s : State} (hm : s.mem.wf = true) {sp : Space} {i : Nat} {v : Byte}
    (h : i < sp.cap → s.mem.find (sp.base + i) = some v) : s.setByte sp i v = s := by
  unfold State.setByte
  split
  case isFalse => rfl
  case isTrue hi =>
    simp only [Memory.wf, Bool.and_eq_true] at hm
    rw [putCell_eq_self hm.1 (h hi)]

theorem State.find_setByte_same {s : State} {sp : Space} {i : Nat} (v : Byte) (h : i < sp.cap) :
    (s.setByte sp i v).mem.find (sp.base + i) = some v := by
  simp [State.setByte, h, Memory.find]

theorem State.find_setByte_other {s : State} {sp : Space} {i off : Nat} (v : Byte) (h : sp.base + i ≠ off) :
    (s.setByte sp i v).mem.find off = s.mem.find off := by
  unfold State.setByte
  split
  · exact findCell_putCell_other h v s.mem.cells
  · rfl

/-- Writing upwards from index `i` leaves the offsets below alone. -/
theorem State.find_setBytesFrom_of_lt {sp : Space} {i off : Nat} (bs : List Byte) (s : State) (h : off < sp.base + i) :
    (State.setBytesFrom sp i bs s).mem.find off = s.mem.find off := by
  induction bs generalizing i s with
  | nil => rfl
  | cons v rest ih => rw [State.setBytesFrom, ih _ (by omega), State.find_setByte_other v (by omega)]

theorem State.setBytesFrom_setBytesFrom_same (sp : Space) (i : Nat) (bs : List Byte) {s : State}
    (hm : s.mem.wf = true) :
    State.setBytesFrom sp i bs (State.setBytesFrom sp i bs s) = State.setBytesFrom sp i bs s := by
  induction bs generalizing i s with
  | nil => rfl
  | cons v rest ih =>
    have hm' : (s.setByte sp i v).mem.wf = true := State.setByte_wf s sp i v hm
    have hfirst : (State.setBytesFrom sp i (v :: rest) s).setByte sp i v = State.setBytesFrom sp i (v :: rest) s := by
      refine State.setByte_eq_self (State.setBytesFrom_wf sp i _ s hm) fun hi => ?_
      rw [State.setBytesFrom, State.find_setBytesFrom_of_lt rest _ (by omega), State.find_setByte_same v hi]
    rw [State.setBytesFrom, hfirst, State.setBytesFrom, ih (i + 1) hm']

/-- A state whose buffer memory is what a write left is unchanged by the same write. -/
theorem State.setBytes_eq_self {s t : State} {sp : Space} {bs : List Byte} (hm : s.mem.wf = true)
    (ht : t.mem = (s.setBytes sp bs).mem) : t.setBytes sp bs = t := by
  have hmem : (t.setBytes sp bs).mem = t.mem := by
    rw [State.setBytes_mem_congr ht, ht, State.setBytes, State.setBytes,
      State.setBytesFrom_setBytesFrom_same sp 0 bs hm]
  rw [State.setBytes_eq_withMem, hmem]

theorem State.bytes_setBytes_same (s : State) {sp : Space} {bs : List Byte} {n : Nat} (hn : bs.length = n)
    (hcap : n ≤ sp.cap) : (s.setBytes sp bs).bytes sp n = bs := by
  subst hn
  apply List.ext_getElem (State.bytes_length _ _ _)
  intro i hi hi'
  simp [State.bytes, State.byte_setBytes s sp bs sp i hcap, hi']

theorem State.bytes_setBytes_other (s : State) {sp sp' : Space} (bs : List Byte) (n : Nat) (h : sp ≠ sp') :
    (s.setBytes sp bs).bytes sp' n = s.bytes sp' n :=
  List.map_congr_left fun i _ => State.byte_setBytes_other s bs i h

/-! ## Tables ensured or generated again -/

theorem State.ensureTable_of_valid {s : State} {rate : Nat} (h : (s.slot rate).valid = true) (row : RateRow) :
    s.ensureTable rate row = s := if_pos h

theorem State.table_congr {s t : State} (h : s.cache = t.cache) (rate n : Nat) : s.table rate n = t.table rate n := by
  rw [State.table, State.slot_congr h, State.table]

theorem State.setSlot_eq_self {s : State} {r : Nat} {sl : Slot} (h : s.slot r = sl) (hr : r < 8) :
    s.setSlot r sl = s := by
  subst h
  have hcache : s.cache.setIfInBounds r (s.slot r) = s.cache := by
    apply Vector.ext
    intro i hi
    rw [Vector.getElem_setIfInBounds]
    split
    case isTrue h => simp [State.slot, ← h, hr]
    case isFalse => rfl
  rw [State.setSlot, hcache]

/-- The generated entries replace themselves, and the entries above them stay (R77). -/
theorem State.fillSlot_eq_self {s t : State} {rate : Nat} {row : RateRow} (hrate : rate < 8)
    (ht : t.cache = (s.fillSlot rate row).cache) : t.fillSlot rate row = t := by
  refine State.setSlot_eq_self ?_ hrate
  rw [State.slot_congr ht, State.slot_fillSlot row hrate]
  simp

/-! ## Bits ORed again -/

/-- One entry of `Interleave` (R83). -/
def interleaveStep (inp out : List Byte) (e : Entry) : List Byte :=
  orIf ((inp.getD e.srcByte.toNat 0 &&& e.srcMask) != 0) e.dstByte.toNat e.dstMask out

theorem interleave_cons (e : Entry) (T : List Entry) (inp out : List Byte) :
    interleave (e :: T) inp out = interleave T inp (interleaveStep inp out e) := rfl

theorem orIf_eq_modify (set : Bool) (i : Nat) (m : Byte) (out : List Byte) :
    orIf set i m out = if set then out.modify i (· ||| m) else out := by
  rw [List.modify_eq_set]
  rfl

theorem orIf_orIf_same (set : Bool) (i : Nat) (m : Byte) (out : List Byte) :
    orIf set i m (orIf set i m out) = orIf set i m out := by
  have hor : (· ||| m) ∘ (· ||| m) = (· ||| m) := by
    funext b
    simp [BitVec.or_assoc]
  cases set with
  | false => rfl
  | true => simp only [orIf_eq_modify, if_true, List.modify_modify_eq, hor]

theorem orIf_comm (set set' : Bool) (i i' : Nat) (m m' : Byte) (out : List Byte) :
    orIf set i m (orIf set' i' m' out) = orIf set' i' m' (orIf set i m out) := by
  have hor : (· ||| m) ∘ (· ||| m') = (· ||| m') ∘ (· ||| m) := by
    funext b
    simp [BitVec.or_assoc, BitVec.or_comm m]
  simp only [orIf_eq_modify]
  cases set with
  | false => rfl
  | true =>
    cases set' with
    | false => rfl
    | true =>
      by_cases hi : i = i'
      · subst hi
        simp only [if_true, List.modify_modify_eq, hor]
      · exact List.modify_modify_ne _ _ _ (Ne.symm hi)

/-- The entries can be taken in any order (R91). -/
theorem interleaveStep_rightCommutative (inp : List Byte) : RightCommutative (interleaveStep inp) :=
  ⟨fun _ _ _ => orIf_comm _ _ _ _ _ _ _⟩

theorem interleave_cons_last (e : Entry) (T : List Entry) (inp out : List Byte) :
    interleave (e :: T) inp out = interleaveStep inp (interleave T inp out) e :=
  List.foldl_cons_eq_apply_foldl (hv := interleaveStep_rightCommutative inp)

/-- Into an output that holds them already, the same bits change nothing (R89). -/
theorem interleave_interleave_same (T : List Entry) (inp out : List Byte) :
    interleave T inp (interleave T inp out) = interleave T inp out := by
  induction T with
  | nil => rfl
  | cons e T ih =>
    calc interleave (e :: T) inp (interleave (e :: T) inp out)
        = interleave T inp (interleaveStep inp (interleaveStep inp (interleave T inp out) e) e) := by
          rw [interleave_cons_last e T inp out, interleave_cons]
      _ = interleave (e :: T) inp (interleave T inp out) := by
          rw [interleaveStep, interleaveStep, orIf_orIf_same, interleave_cons, interleaveStep]
      _ = interleave (e :: T) inp out := by
          rw [interleave_cons_last, ih, interleave_cons_last]

theorem deinterleave_deinterleave_same (T : List Entry) (inp out : List Byte) :
    deinterleave T inp (deinterleave T inp out) = deinterleave T inp out := by
  simp only [deinterleave_eq_interleave_flip, interleave_interleave_same]

/-! ## Faults recorded again -/

/-- Fault entry overwrites all it writes (R127). -/
theorem raiseFault_raiseFault_same (f : CommandFault) (c : Option Space) (s : State) :
    raiseFault f c (raiseFault f c s) = raiseFault f c s := by
  cases c with
  | none => rfl
  | some sp => cases sp <;> rfl

theorem raiseFault_slot (f : CommandFault) (c : Option Space) (s : State) (r : Nat) :
    (raiseFault f c s).slot r = s.slot r := State.slot_congr (by simp) r

theorem raiseFault_len_other (f : CommandFault) {c : Option Space} {sp : Space} (h : c ≠ some sp) (s : State) :
    (raiseFault f c s).len sp = s.len sp := by rw [raiseFault_len, if_neg h]

/-! ## `GENTBL` repeated -/

theorem gentbl_gentbl (P : Params) (rate : Nat) (s : State) : gentbl P rate (gentbl P rate s) = gentbl P rate s := by
  rcases gentbl_cases P rate s with ⟨hrate, h⟩ | ⟨row, hrow, h⟩ <;> rw [h, gentbl]
  · rw [withRate_none hrate, raiseFault_raiseFault_same]
  · rw [withRate_some hrow, State.fillSlot_eq_self (s := s) (rateRow_lt hrow) (by simp)]
    rfl

/-! ## The symbol commands repeated -/

/-- What a completing `ILV` or `DILV` writes to `SOB` (R85, R86). -/
def symbolOutput (f : List Entry → List Byte → List Byte → List Byte) (rate : Nat) (row : RateRow) (s : State) :
    List Byte := f (s.table rate row.ncbps) (s.bytes .sib (row.ncbps / 8)) (s.bytes .sob (row.ncbps / 8))

/-- The exit of a completing `ILV` or `DILV` (R85, R86). -/
def symbolExit (f : List Entry → List Byte → List Byte → List Byte) (rate : Nat) (row : RateRow) (s : State) : State :=
  complete ((s.setBytes .sob (symbolOutput f rate row s)).setResult (row.ncbps / 8))

section Symbol

variable {P : Params} {f : List Entry → List Byte → List Byte → List Byte} {rate : Nat} {row : RateRow} {s : State}

theorem symbolCommand_completes (hrow : rateRow P rate = some row) (hv : (s.slot rate).valid = true)
    (hi : (s.len .sib).toNat = row.ncbps / 8) (ho : (s.len .sob).toNat = row.ncbps / 8) :
    symbolCommand P f rate s = symbolExit f rate row s := by
  rw [symbolCommand, withRate_some hrow, requireTable_valid hv, requireLen_eq hi, requireLen_eq ho]
  rfl

theorem symbolExit_cache : (symbolExit f rate row s).cache = s.cache := by simp [symbolExit]

theorem symbolExit_mem : (symbolExit f rate row s).mem = (s.setBytes .sob (symbolOutput f rate row s)).mem := by
  simp [symbolExit]

theorem symbolExit_epoch : (symbolExit f rate row s).epoch = s.epoch := by simp [symbolExit]

theorem symbolExit_len (sp : Space) : (symbolExit f rate row s).len sp = s.len sp := by
  cases sp <;> simp [symbolExit, State.len]

/-- The second run finds its own output in `SOB`, which takes the same bits again. -/
theorem symbolOutput_symbolExit (hlen : ∀ T inp out, (f T inp out).length = out.length)
    (hsame : ∀ T inp out, f T inp (f T inp out) = f T inp out) (hcap : row.ncbps / 8 ≤ Space.sob.cap) :
    symbolOutput f rate row (symbolExit f rate row s) = symbolOutput f rate row s := by
  have hsize : (symbolOutput f rate row s).length = row.ncbps / 8 := by rw [symbolOutput, hlen, State.bytes_length]
  have hepoch : (symbolExit f rate row s).epoch = (s.setBytes .sob (symbolOutput f rate row s)).epoch := by
    rw [symbolExit_epoch, State.setBytes_epoch]
  rw [symbolOutput, State.table_congr symbolExit_cache, State.bytes_congr symbolExit_mem hepoch,
    State.bytes_congr symbolExit_mem hepoch, State.bytes_setBytes_other s _ _ (by decide),
    State.bytes_setBytes_same s hsize hcap, symbolOutput, hsame]

theorem symbolExit_symbolExit (hlen : ∀ T inp out, (f T inp out).length = out.length)
    (hsame : ∀ T inp out, f T inp (f T inp out) = f T inp out) (hcap : row.ncbps / 8 ≤ Space.sob.cap)
    (hm : s.mem.wf = true) : symbolExit f rate row (symbolExit f rate row s) = symbolExit f rate row s := by
  rw [symbolExit, symbolOutput_symbolExit hlen hsame hcap, State.setBytes_eq_self hm symbolExit_mem]
  rfl

end Symbol

theorem symbolCommand_symbolCommand {P : Params} (hP : P.rates.wf = true)
    {f : List Entry → List Byte → List Byte → List Byte} (hlen : ∀ T inp out, (f T inp out).length = out.length)
    (hsame : ∀ T inp out, f T inp (f T inp out) = f T inp out) (rate : Nat) {s : State} (hm : s.mem.wf = true) :
    symbolCommand P f rate (symbolCommand P f rate s) = symbolCommand P f rate s := by
  rcases symbolCommand_cases P f rate s with
    ⟨hrate, h⟩ | ⟨hrate, hv, h⟩ | ⟨row, hrow, hv, ⟨hl, h⟩ | ⟨hi, ho, -⟩⟩
  · rw [h, symbolCommand, withRate_none hrate, raiseFault_raiseFault_same]
  · obtain ⟨row, hrow⟩ := rateRow_exists P hrate
    rw [h, symbolCommand, withRate_some hrow, requireTable_invalid (by rw [raiseFault_slot, hv]),
      raiseFault_raiseFault_same]
  · rw [h, symbolCommand, withRate_some hrow, requireTable_valid (by rw [raiseFault_slot, hv])]
    by_cases hi : (s.len .sib).toNat = row.ncbps / 8
    · have ho : (s.len .sob).toNat ≠ row.ncbps / 8 := hl.resolve_left (absurd hi)
      rw [requireLen_eq (by simpa using hi), requireLen_ne (by simpa using ho), raiseFault_raiseFault_same]
    · rw [requireLen_ne (by simpa using hi), raiseFault_raiseFault_same]
  · obtain ⟨-, -, -, hncbps, -⟩ := RateRow.wf_bounds (RateTable.row_wf hP hrow)
    have hcap : row.ncbps / 8 ≤ Space.sob.cap := show row.ncbps / 8 ≤ 36 by omega
    rw [symbolCommand_completes hrow hv hi ho,
      symbolCommand_completes hrow (by rw [State.slot_congr symbolExit_cache, hv]) (by rw [symbolExit_len]; exact hi)
      (by rw [symbolExit_len]; exact ho), symbolExit_symbolExit hlen hsame hcap hm]

/-! ## `CLEN` repeated -/

theorem clen_clen (P : Params) (rate length : Nat) (s : State) :
    clen P rate length (clen P rate length s) = clen P rate length s := by
  rcases clen_cases P rate length s with ⟨hrate, h⟩ | ⟨row, hrow, ⟨hx, h⟩ | ⟨hx, h⟩⟩ <;> rw [h, clen]
  · rw [withRate_none hrate, raiseFault_raiseFault_same]
  · rw [withRate_some hrow, withLengths_inexact hx, raiseFault_raiseFault_same]
  · rw [withRate_some hrow, withLengths_exact hx]
    rfl

/-! ## The packet commands repeated -/

/-- The exit `PENC` and `PDEC` share (R102, R104): the table ensured, `n` bytes of output written and declared. -/
def packetExit (rate : Nat) (row : RateRow) (sp : Space) (bytes : List Byte) (n : Nat) (s : State) : State :=
  complete ((((s.ensureTable rate row).setBytes sp bytes).setLen sp (BitVec.ofNat 32 n)).setResult n)

section PacketExit

variable {rate : Nat} {row : RateRow} {sp : Space} {bytes : List Byte} {n : Nat} {s : State}

theorem packetExit_cache : (packetExit rate row sp bytes n s).cache = (s.ensureTable rate row).cache := by
  simp [packetExit]

theorem packetExit_mem : (packetExit rate row sp bytes n s).mem = (s.setBytes sp bytes).mem := by
  simpa [packetExit] using State.setBytes_mem_congr (by simp) sp bytes

theorem packetExit_ensureTable (h : rate < 8) :
    (packetExit rate row sp bytes n s).ensureTable rate row = packetExit rate row sp bytes n s :=
  State.ensureTable_of_valid (by rw [State.slot_congr packetExit_cache, State.valid_ensureTable s row h]) row

theorem packetExit_bytes_other {sp' : Space} (h : sp ≠ sp') (k : Nat) :
    (packetExit rate row sp bytes n s).bytes sp' k = s.bytes sp' k := by
  rw [State.bytes_congr packetExit_mem (by simp [packetExit]), State.bytes_setBytes_other s bytes k h]

theorem packetExit_len_other {sp' : Space} (h : sp ≠ sp') :
    (packetExit rate row sp bytes n s).len sp' = s.len sp' := by
  have hset (u : State) : (complete (u.setResult n)).len sp' = u.len sp' := by cases sp' <;> rfl
  rw [packetExit, hset, State.len_setLen, if_neg h]
  cases sp' <;> simp [State.len]

theorem packetExit_packetExit (hm : s.mem.wf = true) (h : rate < 8) :
    packetExit rate row sp bytes n (packetExit rate row sp bytes n s) = packetExit rate row sp bytes n s := by
  rw [packetExit, packetExit_ensureTable h, State.setBytes_eq_self hm packetExit_mem]
  cases sp <;> rfl

end PacketExit

section Packet

variable {P : Params} {rate seed length : Nat} {row : RateRow} {s : State}

theorem penc_completes (hrow : rateRow P rate = some row) (hx : exactFor row length)
    (hl : (s.len .pb).toNat = length) :
    penc P rate seed length s =
      packetExit rate row .cb (encodePacket P row ((s.ensureTable rate row).table rate row.ncbps)
        (packetLengths row.ndbps row.ncbps length) seed (s.bytes .pb length))
        (packetLengths row.ndbps row.ncbps length).encMsgLen s := by
  rw [penc, withRate_some hrow, withLengths_exact hx, requireLen_eq hl]
  rfl

theorem pdec_completes (hrow : rateRow P rate = some row) (hx : exactFor row length)
    (hl : (s.len .cb).toNat = (packetLengths row.ndbps row.ncbps length).encMsgLen) {payload : List Byte}
    (hok : decodePacket P row ((s.ensureTable rate row).table rate row.ncbps)
      (packetLengths row.ndbps row.ncbps length) seed length
      (s.bytes .cb (packetLengths row.ndbps row.ncbps length).encMsgLen) = .ok payload) :
    pdec P rate seed length s = packetExit rate row .pb payload length s := by
  rw [pdec, withRate_some hrow, withLengths_exact hx, requireLen_eq hl]
  simp only [hok]
  rfl

theorem pdec_uncorrectable (hrow : rateRow P rate = some row) (hx : exactFor row length)
    (hl : (s.len .cb).toNat = (packetLengths row.ndbps row.ncbps length).encMsgLen)
    (hbad : decodePacket P row ((s.ensureTable rate row).table rate row.ncbps)
      (packetLengths row.ndbps row.ncbps length) seed length
      (s.bytes .cb (packetLengths row.ndbps row.ncbps length).encMsgLen) = .uncorrectable) :
    pdec P rate seed length s = raiseFault .fecUncorrectable (some .pb) (s.ensureTable rate row) := by
  rw [pdec, withRate_some hrow, withLengths_exact hx, requireLen_eq hl]
  simp only [hbad]

end Packet

theorem penc_penc (P : Params) (rate seed length : Nat) {s : State} (hm : s.mem.wf = true) :
    penc P rate seed length (penc P rate seed length s) = penc P rate seed length s := by
  rcases penc_cases P rate seed length s with
    ⟨hrate, h⟩ | ⟨row, hrow, ⟨hx, h⟩ | ⟨hx, hl, h⟩ | ⟨hx, hl, -⟩⟩
  · rw [h, penc, withRate_none hrate, raiseFault_raiseFault_same]
  · rw [h, penc, withRate_some hrow, withLengths_inexact hx, raiseFault_raiseFault_same]
  · rw [h, penc, withRate_some hrow, withLengths_exact hx,
      requireLen_ne (by rw [raiseFault_len_other _ (by decide)]; exact hl), raiseFault_raiseFault_same]
  · have hrate := rateRow_lt hrow
    rw [penc_completes hrow hx hl, penc_completes hrow hx (by rw [packetExit_len_other (by decide)]; exact hl),
      packetExit_ensureTable hrate, State.table_congr packetExit_cache, packetExit_bytes_other (by decide),
      packetExit_packetExit hm hrate]

theorem pdec_pdec (P : Params) (rate seed length : Nat) {s : State} (hm : s.mem.wf = true) :
    pdec P rate seed length (pdec P rate seed length s) = pdec P rate seed length s := by
  rcases pdec_cases P rate seed length s with
    ⟨hrate, h⟩ | ⟨row, hrow, ⟨hx, h⟩ | ⟨hx, hl, h⟩ | ⟨hx, hl, hbad, -⟩ | ⟨hx, hl, payload, hok, -⟩⟩
  · rw [h, pdec, withRate_none hrate, raiseFault_raiseFault_same]
  · rw [h, pdec, withRate_some hrow, withLengths_inexact hx, raiseFault_raiseFault_same]
  · rw [h, pdec, withRate_some hrow, withLengths_exact hx,
      requireLen_ne (by rw [raiseFault_len_other _ (by decide)]; exact hl), raiseFault_raiseFault_same]
  · rw [pdec_uncorrectable hrow hx hl hbad]
    generalize hs' : s.ensureTable rate row = s' at hbad ⊢
    have hvalid : ((raiseFault .fecUncorrectable (some .pb) s').slot rate).valid = true := by
      rw [raiseFault_slot, ← hs', State.valid_ensureTable s row (rateRow_lt hrow)]
    have hensure := State.ensureTable_of_valid hvalid row
    rw [pdec_uncorrectable hrow hx
      (by rw [raiseFault_len_other _ (by decide), ← hs']; simpa [State.len] using hl), hensure,
      raiseFault_raiseFault_same]
    rw [hensure, State.table_congr (raiseFault_cache _ _ _),
      State.bytes_congr (t := s) (by simp [← hs']) (by simp [← hs']), hbad]
  · have hrate := rateRow_lt hrow
    rw [pdec_completes hrow hx hl hok, pdec_completes hrow hx (by rw [packetExit_len_other (by decide)]; exact hl),
      packetExit_packetExit hm hrate]
    rw [packetExit_ensureTable hrate, State.table_congr packetExit_cache, packetExit_bytes_other (by decide), hok]

/-- Settles O55, command by command: the second run reads what the first left, and writes what stands already. -/
theorem repeatingACommandChangesNothingMore : Obligations.RepeatingACommandChangesNothingMore := by
  intro i s t hm h
  cases i with
  | gentbl rate => cases h; exact congrArg Host.Outcome.next (gentbl_gentbl block rate s)
  | ilv rate =>
    cases h
    exact congrArg Host.Outcome.next
      (symbolCommand_symbolCommand block_rates_wf interleave_length interleave_interleave_same rate hm)
  | dilv rate =>
    cases h
    exact congrArg Host.Outcome.next
      (symbolCommand_symbolCommand block_rates_wf deinterleave_length deinterleave_deinterleave_same rate hm)
  | clen rate length => cases h; exact congrArg Host.Outcome.next (clen_clen block rate length s)
  | penc rate seed length => cases h; exact congrArg Host.Outcome.next (penc_penc block rate seed length hm)
  | pdec rate seed length => cases h; exact congrArg Host.Outcome.next (pdec_pdec block rate seed length hm)
  | brev byte => cases h; rfl

end Sys2Proof.Machine
end

section
/-! PROOFS. The decoder against the match and mask table of R56 (O4), and the words it calls illegal (O5). -/

namespace Sys2Proof

/-! ## Masks that select a field -/

/-- The word whose set bits are `hi` down to `lo`. -/
def bitsMask (hi lo : Nat) : Word := BitVec.allOnes 32 >>> (31 - hi) &&& BitVec.allOnes 32 <<< lo

theorem bitsMask_getLsbD {hi : Nat} (hhi : hi < 32) (lo i : Nat) :
    (bitsMask hi lo).getLsbD i = decide (lo ≤ i ∧ i ≤ hi) := by
  simp only [bitsMask, BitVec.getLsbD_and, BitVec.getLsbD_ushiftRight, BitVec.getLsbD_shiftLeft,
    BitVec.getLsbD_allOnes, ← Bool.decide_and, ← decide_not]
  exact decide_eq_decide.mpr (by omega)

/-- A word masked to the bits of a field is a value shifted into place iff the field holds that value. -/
theorem and_bitsMask_eq_iff (w : Word) {hi lo v : Nat} (hlo : lo ≤ hi) (hhi : hi < 32) (hv : v < 2 ^ (hi - lo + 1)) :
    w &&& bitsMask hi lo = BitVec.ofNat 32 v <<< lo ↔ field w hi lo = v := by
  rw [field_eq_iff w hi lo v hv]
  constructor
  · intro h k hk
    have hbit := congrArg (·.getLsbD (lo + k)) h
    simpa [-BitVec.getLsbD_eq_getElem, BitVec.getLsbD_ofNat, bitsMask_getLsbD hhi,
      show lo + k ≤ hi by omega, show lo + k < 32 by omega, show k < 32 by omega] using hbit
  · intro h
    refine BitVec.eq_of_getLsbD_eq fun i hi32 => ?_
    rw [BitVec.getLsbD_and, bitsMask_getLsbD hhi, BitVec.getLsbD_shiftLeft, BitVec.getLsbD_ofNat]
    by_cases hin : lo ≤ i
    · obtain ⟨k, rfl⟩ := Nat.exists_eq_add_of_le hin
      by_cases hk : k < hi - lo + 1
      · simp [-BitVec.getLsbD_eq_getElem, h k hk, hi32, show lo + k ≤ hi by omega, show k < 32 by omega]
      · have hzero : v.testBit k = false := Nat.testBit_lt_two_pow
          (lt_of_lt_of_le hv (Nat.pow_le_pow_right (by omega) (by omega)))
        simp [hzero, show ¬ lo + k ≤ hi by omega]
    · simp [hin]

/-- Absorption. -/
theorem and_or_self_left (a b : Word) : a &&& (a ||| b) = a := by
  ext i
  simp +contextual

/-- Matching under the union of two masks is matching under each, when every set bit of the match is in the first. -/
theorem and_or_eq_iff {w a b p : Word} (ha : p &&& a = p) (hb : p &&& b = 0) :
    w &&& (a ||| b) = p ↔ w &&& a = p ∧ w &&& b = 0 := by
  constructor
  · intro h
    have hwa : w &&& (a ||| b) &&& a = w &&& a := by
      rw [BitVec.and_assoc, BitVec.and_comm (a ||| b), and_or_self_left]
    have hwb : w &&& (a ||| b) &&& b = w &&& b := by
      rw [BitVec.and_assoc, BitVec.and_comm (a ||| b), BitVec.or_comm, and_or_self_left]
    exact ⟨by rw [← hwa, h, ha], by rw [← hwb, h, hb]⟩
  · rintro ⟨hwa, hwb⟩
    rw [BitVec.and_or_distrib_left, hwa, hwb]
    exact BitVec.or_zero

/-! ## The formats of R51 to R54 -/

/-- A command's mnemonic and opcode, and the field `hi:lo` its format keeps zero (R51 to R54, R56). -/
structure CommandFormat where
  mnemonic : String
  op : Nat
  hi : Nat
  lo : Nat
  deriving DecidableEq

/-- The seven formats (R51 to R54), in the order of the opcode map. -/
def commandFormats : List CommandFormat :=
  [⟨"GENTBL", 1, 23, 0⟩, ⟨"ILV", 2, 23, 0⟩, ⟨"DILV", 3, 23, 0⟩, ⟨"CLEN", 4, 23, 12⟩, ⟨"PENC", 5, 16, 12⟩,
   ⟨"PDEC", 6, 16, 12⟩, ⟨"BREV", 7, 27, 8⟩]

namespace CommandFormat

/-- The word has the format's opcode, and zero in its reserved field. -/
def Selects (f : CommandFormat) (w : Word) : Prop := field w 31 28 = f.op ∧ field w f.hi f.lo = 0

/-- The row of the opcode map that selects the words of the format. -/
def row (f : CommandFormat) : OpcodeRow :=
  ⟨f.mnemonic, BitVec.ofNat 32 f.op <<< 28, bitsMask 31 28 ||| bitsMask f.hi f.lo⟩

end CommandFormat

/-- The match and mask constants of R56 are those the formats of R51 to R54 give. -/
theorem opcodeMap_eq_map_row : opcodeMap = commandFormats.map CommandFormat.row := by decide

namespace CommandFormat

variable {f g : CommandFormat} {w : Word} {i : Instr}

theorem fields_fit (hf : f ∈ commandFormats) : f.op < 16 ∧ f.lo ≤ f.hi ∧ f.hi < 28 := by
  revert f
  decide

/-- The match of a format lies in the opcode bits, and off the reserved field. -/
theorem pattern_and_masks (hf : f ∈ commandFormats) :
    f.row.pattern &&& bitsMask 31 28 = f.row.pattern ∧ f.row.pattern &&& bitsMask f.hi f.lo = 0 := by
  revert f
  decide

theorem eq_of_mnemonic_eq (hf : f ∈ commandFormats) (hg : g ∈ commandFormats) (h : f.mnemonic = g.mnemonic) : f = g := by
  have hinj : ∀ f ∈ commandFormats, ∀ g ∈ commandFormats, f.mnemonic = g.mnemonic → f = g := by decide
  exact hinj f hf g hg h

theorem row_accepts_iff_selects (hf : f ∈ commandFormats) : f.row.accepts w ↔ f.Selects w := by
  obtain ⟨hop, hlo, hhi⟩ := fields_fit hf
  obtain ⟨hpop, hpzero⟩ := pattern_and_masks hf
  calc f.row.accepts w
    _ ↔ w &&& bitsMask 31 28 = f.row.pattern ∧ w &&& bitsMask f.hi f.lo = 0 := and_or_eq_iff hpop hpzero
    _ ↔ f.Selects w := and_congr (and_bitsMask_eq_iff w (by decide) (by decide) hop)
        (by simpa using and_bitsMask_eq_iff w (v := 0) hlo (by omega) (by simp))

/-! ## What the decoder reads -/

/-- A word that decodes has the format of the command it decodes to. -/
theorem exists_selects_of_decode (h : decode w = .ok i) :
    ∃ f ∈ commandFormats, f.mnemonic = i.mnemonic ∧ f.Selects w := by
  obtain ⟨ho, hz, rfl⟩ | ⟨ho, hz, rfl⟩ | ⟨ho, hz, rfl⟩ | ⟨ho, hz, rfl⟩ | ⟨ho, hz, rfl⟩ | ⟨ho, hz, rfl⟩ | ⟨ho, hz, rfl⟩ :=
    decode_cases h
  · exact ⟨⟨"GENTBL", 1, 23, 0⟩, by decide, rfl, ho, hz⟩
  · exact ⟨⟨"ILV", 2, 23, 0⟩, by decide, rfl, ho, hz⟩
  · exact ⟨⟨"DILV", 3, 23, 0⟩, by decide, rfl, ho, hz⟩
  · exact ⟨⟨"CLEN", 4, 23, 12⟩, by decide, rfl, ho, hz⟩
  · exact ⟨⟨"PENC", 5, 16, 12⟩, by decide, rfl, ho, hz⟩
  · exact ⟨⟨"PDEC", 6, 16, 12⟩, by decide, rfl, ho, hz⟩
  · exact ⟨⟨"BREV", 7, 27, 8⟩, by decide, rfl, ho, hz⟩

/-- A word of a format decodes to a command of that format. -/
theorem exists_decode_of_selects (hf : f ∈ commandFormats) (h : f.Selects w) :
    ∃ i, decode w = .ok i ∧ i.mnemonic = f.mnemonic := by
  obtain ⟨hop, hzero⟩ := h
  simp only [commandFormats, List.mem_cons, List.not_mem_nil, or_false] at hf
  obtain rfl | rfl | rfl | rfl | rfl | rfl | rfl := hf
  all_goals
    simp only [decode, hop, hzero, acceptIfZero]
    exact ⟨_, rfl, rfl⟩

theorem selects_iff_decode (hf : f ∈ commandFormats) :
    f.Selects w ↔ ∃ i, decode w = .ok i ∧ i.mnemonic = f.mnemonic := by
  refine ⟨exists_decode_of_selects hf, ?_⟩
  rintro ⟨i, hi, hm⟩
  obtain ⟨g, hg, hgm, hsel⟩ := exists_selects_of_decode hi
  exact eq_of_mnemonic_eq hg hf (hgm.trans hm) ▸ hsel

end CommandFormat

/-- The rows are disjoint because their opcodes differ (R56). -/
theorem opcodeMap_pairwise_disjoint : opcodeMap.Pairwise fun a b => ∀ w, ¬ (a.accepts w ∧ b.accepts w) := by
  have hops : commandFormats.Pairwise fun f g => f.op ≠ g.op := by decide
  rw [opcodeMap_eq_map_row, List.pairwise_map]
  refine hops.imp_of_mem fun {f g} hf hg hne w ⟨hfw, hgw⟩ => hne ?_
  obtain ⟨hfop, -⟩ := (CommandFormat.row_accepts_iff_selects hf).mp hfw
  obtain ⟨hgop, -⟩ := (CommandFormat.row_accepts_iff_selects hg).mp hgw
  exact hfop.symm.trans hgop

/-- Settles O4: a row accepts the words of its format, which are the words that decode to its command. -/
theorem decoderAgreesWithTheMatchAndMaskTable : Obligations.DecoderAgreesWithTheMatchAndMaskTable := by
  refine ⟨fun w row hrow => ?_, fun w ⟨i, hi⟩ => ?_, opcodeMap_pairwise_disjoint, fun w i h => ?_⟩
  · rw [opcodeMap_eq_map_row] at hrow
    obtain ⟨f, hf, rfl⟩ := List.mem_map.mp hrow
    exact (CommandFormat.row_accepts_iff_selects hf).trans (CommandFormat.selects_iff_decode hf)
  · obtain ⟨f, hf, -, hsel⟩ := CommandFormat.exists_selects_of_decode hi
    rw [opcodeMap_eq_map_row]
    exact ⟨f.row, List.mem_map_of_mem hf, (CommandFormat.row_accepts_iff_selects hf).mpr hsel⟩
  · obtain ⟨-, -, rfl⟩ | ⟨-, -, rfl⟩ | ⟨-, -, rfl⟩ | ⟨-, -, rfl⟩ | ⟨-, -, rfl⟩ | ⟨-, -, rfl⟩ | ⟨-, -, rfl⟩ :=
      decode_cases h <;> simp [field]

end Sys2Proof

namespace Sys2Proof.Machine

/-! ## Illegal words -/

/-- A word is reserved iff it has none of the formats: R58 and R59 are the complement of R51 to R54. -/
theorem reservedWord_iff_forall_not_selects (w : Word) : reservedWord w ↔ ∀ f ∈ commandFormats, ¬ f.Selects w := by
  simp only [reservedWord, commandFormats, CommandFormat.Selects, List.forall_mem_cons]
  generalize field w 31 28 = op
  match op with
  | 0 | 1 | 2 | 3 | 4 | 5 | 6 | 7 => simp
  | n + 8 => simp

theorem reservedWord_iff_not_decode (w : Word) : reservedWord w ↔ ¬ ∃ i, decode w = .ok i := by
  rw [reservedWord_iff_forall_not_selects]
  constructor
  · rintro h ⟨i, hi⟩
    obtain ⟨f, hf, -, hsel⟩ := CommandFormat.exists_selects_of_decode hi
    exact h f hf hsel
  · intro h f hf hsel
    obtain ⟨i, hi, -⟩ := CommandFormat.exists_decode_of_selects hf hsel
    exact h ⟨i, hi⟩

/-- A write to `CMD` is a step that runs the word on the state with the access consumed (R16). -/
theorem step_write_cmd (s : State) (rest : List HostEvent) (w : Word) :
    step { s with bus := .write (.reg .cmd) w :: rest } = runCommand w { s with bus := rest } := rfl

theorem raiseIllegal_eq_withFault (w : Word) (s : State) : raiseIllegal w s = s.withFault 4 w.toNat := by
  simp [raiseIllegal, raiseFault, State.withFault, statusErr, CommandFault.code, CommandFault.info]

theorem runCommand_of_not_decode {w : Word} (h : ¬ ∃ i, decode w = .ok i) (s : State) :
    runCommand w s = .next (raiseIllegal w s) := by
  unfold runCommand
  split
  · next i hi => exact absurd ⟨i, hi⟩ h
  · rfl

/-- Settles O5: the reserved words are those that do not decode, and these run to `raiseIllegal`. -/
theorem reservedWordsRaiseIllegalCommand : Obligations.ReservedWordsRaiseIllegalCommand := by
  intro w
  have hw := reservedWord_iff_not_decode w
  refine ⟨fun h s rest => ?_, fun h => not_not.mp (mt hw.mpr h)⟩
  rw [step_write_cmd, runCommand_of_not_decode (hw.mp h), raiseIllegal_eq_withFault]

end Sys2Proof.Machine
end

section
/-! PROOFS. The bit reversal of R69 is the reversal of bit vectors (O17, O19), the printed ROM holds it (O18), and
`BREV` returns it (O20). -/

namespace Sys2Proof.Machine

/-! ## The bit-reversal function -/

/-- The terms of R69 in rising order of their weight: bit `7-j` of the byte has weight `2^j`. -/
theorem rev8_eq_sum_of_bits (b : Byte) :
    rev8 b = BitVec.ofNat 8 (((List.range 8).map fun j => if b.getLsbD (7 - j) then 2 ^ j else 0).sum) := by
  have hback : ((List.range 8).map (7 - ·)).Perm (List.range 8) := by decide
  have hterm : ∀ j ∈ List.range 8,
      b.toNat / 2 ^ (7 - j) % 2 * 2 ^ (7 - (7 - j)) = if b.getLsbD (7 - j) then 2 ^ j else 0 := by
    intro j hj
    rw [Nat.sub_sub_self (Nat.le_of_lt_succ (List.mem_range.mp hj)), ← Nat.toNat_testBit, ← BitVec.getLsbD]
    cases b.getLsbD (7 - j) <;> simp
  rw [rev8, ← (hback.map _).sum_eq, List.map_map]
  exact congrArg (fun l => BitVec.ofNat 8 l.sum) (List.map_congr_left hterm)

theorem rev8_eq_reverse (b : Byte) : rev8 b = b.reverse := by
  refine BitVec.eq_of_getLsbD_eq fun j hj => ?_
  rw [rev8_eq_sum_of_bits, BitVec.getLsbD_ofNat, testBit_sum_two_pow fun j => b.getLsbD (7 - j),
    BitVec.getLsbD_reverse, BitVec.getMsbD]
  simp only [hj, decide_true, Bool.true_and]

/-- Settles O17: `rev8` is `BitVec.reverse`, whose bit `7-i` is the byte's bit `i` from the other end. -/
theorem reversedByteHasTheBitsInReverse : Obligations.ReversedByteHasTheBitsInReverse := by
  intro b i hi
  rw [rev8_eq_reverse, BitVec.getLsbD_reverse, BitVec.getMsbD, Nat.sub_sub_self (by omega)]
  simp [show 7 - i < 8 by omega]

theorem rev8_involutive : Function.Involutive rev8 := fun b => by
  rw [rev8_eq_reverse, rev8_eq_reverse, BitVec.reverse_reverse_eq]

/-- Settles O19: an involution is a bijection. -/
theorem bitReversalIsItsOwnInverse : Obligations.BitReversalIsItsOwnInverse :=
  ⟨rev8_involutive, rev8_involutive.bijective⟩

/-! ## The ROM -/

/-- The printed rows, compared with R69 entry by entry. -/
theorem bitrevRom_eq_map_rev8 : bitrevRom = (List.range 256).map fun n => rev8 (BitVec.ofNat 8 n) := by
  decide +kernel

theorem bitrev_eq_rev8 (b : Byte) : bitrev b = rev8 b := by
  simp [bitrev, bitrevRom_eq_map_rev8, List.getD_eq_getElem?_getD, b.isLt]

/-- Settles O18: the ROM is read at an index below its length. -/
theorem bitReversalRomFollowsItsRule : Obligations.BitReversalRomFollowsItsRule :=
  ⟨by simp [bitrevRom_eq_map_rev8], bitrev_eq_rev8⟩

/-! ## The command -/

/-- The word of R61 decodes to its command: opcode 7, bits 27:8 zero, the byte in bits 7:0 (R54). -/
theorem decode_encode_brev {byte : Nat} (h : byte < 256) : decode (encode (.brev byte)) = .ok (.brev byte) := by
  have hop : field (encode (.brev byte)) 31 28 = 7 := Laws.EncodedOpcode.brev byte (decide_eq_true h)
  have hzero : field (encode (.brev byte)) 27 8 = 0 := by
    simp only [field, encode, BitVec.toNat_ofNat]
    omega
  have hbyte : field (encode (.brev byte)) 7 0 = byte := by
    simp only [field, encode, BitVec.toNat_ofNat]
    omega
  simp only [decode, hop, hzero, hbyte, acceptIfZero, if_true]

/-- `BREV` writes the outcome registers and nothing else (R71). -/
theorem brev_eq_withDone (byte : Nat) (s : State) : brev byte s = s.withDone (rev8 (BitVec.ofNat 8 byte)).toNat := by
  rw [← bitrev_eq_rev8]
  rfl

/-- Settles O20: the word is the encoding of the command, and the command returns the ROM's entry. -/
theorem brevReturnsTheReversedByteOnly : Obligations.BrevReturnsTheReversedByteOnly :=
  fun byte s h => ⟨decode_encode_brev h, congrArg Host.Outcome.next (brev_eq_withDone byte s)⟩

end Sys2Proof.Machine
end

section
/-! PROOFS. The generator's entries by the formula of R75 (O21), its destination positions as a permutation (O22), and
`GENTBL` (O23). -/

namespace Sys2Proof.Machine

/-! ## Byte and mask form -/

theorem bitMask_toNat (p : Nat) : (bitMask p).toNat = 2 ^ (7 - p % 8) := by
  have hlt : 2 ^ (7 - p % 8) < 2 ^ 8 := Nat.pow_lt_pow_right (by omega) (by omega)
  rw [bitMask, BitVec.toNat_ofNat, Nat.mod_eq_of_lt hlt]

/-- The byte index of a bit position fits its 8 bits, for positions of at most 256 bytes. -/
theorem toNat_byteIndex {p : Nat} (h : p < 2048) : (BitVec.ofNat 8 (p / 8)).toNat = p / 8 := by
  rw [BitVec.toNat_ofNat, Nat.mod_eq_of_lt (by omega)]

/-- A byte index and a mask name their bit position: `byte*8 + bit_index(mask)` (R76, R79). -/
theorem byteIndex_add_bitIndex {p : Nat} (h : p < 2048) :
    (BitVec.ofNat 8 (p / 8)).toNat * 8 + (7 - Nat.log2 (bitMask p).toNat) = p := by
  rw [toNat_byteIndex h, bitMask_toNat, Nat.log2_two_pow]
  omega

/-! ## The first permutation

The transpose of an array of 16 columns and `ncbps/16` rows (R79). -/

theorem interleavable_iff {ncbps nbpsc : Nat} :
    interleavable ncbps nbpsc = true ↔ 16 ∣ ncbps ∧ rotationBlock nbpsc ∣ ncbps / 16 := by
  simp only [interleavable, rotationBlock, Bool.and_eq_true, beq_iff_eq, Nat.dvd_iff_mod_eq_zero]
  omega

section FirstPermutation

variable {ncbps k : Nat}

theorem firstPos_div (hn : 16 ∣ ncbps) (hk : k < ncbps) : firstPos ncbps k / (ncbps / 16) = k % 16 := by
  have hrow : k / 16 < ncbps / 16 := Nat.div_lt_div_of_lt_of_dvd hn hk
  rw [firstPos, Nat.mul_add_div (by omega), Nat.div_eq_of_lt hrow, Nat.add_zero]

theorem firstPos_mod (hn : 16 ∣ ncbps) (hk : k < ncbps) : firstPos ncbps k % (ncbps / 16) = k / 16 := by
  have hrow : k / 16 < ncbps / 16 := Nat.div_lt_div_of_lt_of_dvd hn hk
  rw [firstPos, Nat.mul_add_mod, Nat.mod_eq_of_lt hrow]

theorem firstPos_lt (hn : 16 ∣ ncbps) (hk : k < ncbps) : firstPos ncbps k < ncbps := by
  have hcol : firstPos ncbps k < 16 * (ncbps / 16) := by
    rw [← Nat.div_lt_iff_lt_mul (by omega), firstPos_div hn hk]
    exact Nat.mod_lt k (by decide)
  rwa [Nat.mul_div_cancel' hn] at hcol

/-- `(16*i) div ncbps` is the column of `i` (R81: at most 15). -/
theorem column_firstPos (hn : 16 ∣ ncbps) (hk : k < ncbps) : 16 * firstPos ncbps k / ncbps = k % 16 := by
  calc 16 * firstPos ncbps k / ncbps
    _ = 16 * firstPos ncbps k / (16 * (ncbps / 16)) := by rw [Nat.mul_div_cancel' hn]
    _ = firstPos ncbps k / (ncbps / 16) := Nat.mul_div_mul_left _ _ (by decide)
    _ = k % 16 := firstPos_div hn hk

theorem firstPos_injOn (hn : 16 ∣ ncbps) : Set.InjOn (firstPos ncbps) (Set.Iio ncbps) := by
  intro k hk k' hk' h
  have hcol : k % 16 = k' % 16 := by rw [← firstPos_div hn hk, ← firstPos_div hn hk', h]
  have hrow : k / 16 = k' / 16 := by rw [← firstPos_mod hn hk, ← firstPos_mod hn hk', h]
  omega

end FirstPermutation

/-! ## The second permutation

A rotation within each block of `s` positions, by the number of the block's column: `s` divides a column's height, so a
block lies in one column (R79). -/

theorem rotationBlock_pos (nbpsc : Nat) : 0 < rotationBlock nbpsc := Nat.lt_of_lt_of_le Nat.one_pos (le_max_left _ _)

/-- The second permutation keeps the block. -/
theorem destPos_div (ncbps nbpsc k : Nat) :
    destPos ncbps nbpsc k / rotationBlock nbpsc = firstPos ncbps k / rotationBlock nbpsc := by
  have hs := rotationBlock_pos nbpsc
  rw [destPos, Nat.mul_add_div hs, Nat.div_eq_of_lt (Nat.mod_lt _ hs), Nat.add_zero]

/-- The second permutation moves the offset in the block back by the column (R75, R81). -/
theorem destPos_mod {ncbps k : Nat} (hn : 16 ∣ ncbps) (hk : k < ncbps) (nbpsc : Nat) :
    destPos ncbps nbpsc k % rotationBlock nbpsc = (firstPos ncbps k + (ncbps - k % 16)) % rotationBlock nbpsc := by
  have hcol : k % 16 ≤ ncbps := (Nat.mod_le k 16).trans hk.le
  rw [destPos, Nat.mul_add_mod, Nat.mod_mod, column_firstPos hn hk, Nat.add_sub_assoc hcol]

/-- The column of a position is the column of its block. -/
theorem firstPos_block_column {ncbps k s : Nat} (hn : 16 ∣ ncbps) (hk : k < ncbps) (hs : s ∣ ncbps / 16) :
    firstPos ncbps k / s / (ncbps / 16 / s) = k % 16 := by
  rw [Nat.div_div_eq_div_mul, Nat.mul_div_cancel' hs, firstPos_div hn hk]

section Destination

variable {ncbps nbpsc : Nat}

theorem destPos_lt (h : interleavable ncbps nbpsc = true) {k : Nat} (hk : k < ncbps) : destPos ncbps nbpsc k < ncbps := by
  obtain ⟨hn, hs⟩ := interleavable_iff.mp h
  have hsn : rotationBlock nbpsc ∣ ncbps := hs.trans (Nat.div_dvd_of_dvd hn)
  have hblock : destPos ncbps nbpsc k / rotationBlock nbpsc < ncbps / rotationBlock nbpsc := by
    rw [destPos_div]
    exact Nat.div_lt_div_of_lt_of_dvd hsn (firstPos_lt hn hk)
  exact Nat.lt_of_div_lt_div hblock

/-- Positions of one destination lie in one block, so they were rotated alike and were the same before. -/
theorem destPos_injOn (h : interleavable ncbps nbpsc = true) : Set.InjOn (destPos ncbps nbpsc) (Set.Iio ncbps) := by
  obtain ⟨hn, hs⟩ := interleavable_iff.mp h
  intro k hk k' hk' hj
  refine firstPos_injOn hn hk hk' ?_
  have hblock : firstPos ncbps k / rotationBlock nbpsc = firstPos ncbps k' / rotationBlock nbpsc := by
    rw [← destPos_div, hj, destPos_div]
  have hcol : k % 16 = k' % 16 := by rw [← firstPos_block_column hn hk hs, hblock, firstPos_block_column hn hk' hs]
  have hmod : (firstPos ncbps k + (ncbps - k % 16)) % rotationBlock nbpsc =
      (firstPos ncbps k' + (ncbps - k % 16)) % rotationBlock nbpsc := by
    rw [← destPos_mod hn hk, hj, destPos_mod hn hk', hcol]
  have hoff : firstPos ncbps k % rotationBlock nbpsc = firstPos ncbps k' % rotationBlock nbpsc :=
    Nat.ModEq.add_right_cancel' _ hmod
  rw [← Nat.div_add_mod (firstPos ncbps k) (rotationBlock nbpsc), hblock, hoff, Nat.div_add_mod]

/-- `k -> j(k)` is a bijection on `[0, ncbps)` (R79): injective on a finite set into itself. -/
theorem destPos_bijOn (h : interleavable ncbps nbpsc = true) :
    Set.BijOn (destPos ncbps nbpsc) (Set.Iio ncbps) (Set.Iio ncbps) := by
  have hmaps : Set.MapsTo (destPos ncbps nbpsc) (Set.Iio ncbps) (Set.Iio ncbps) := fun _ => destPos_lt h
  refine ⟨hmaps, destPos_injOn h, ?_⟩
  rw [← Finset.coe_Iio] at hmaps ⊢
  exact Finset.surjOn_of_injOn_of_card_le _ hmaps (by simpa using destPos_injOn h) le_rfl

end Destination

/-! ## The entries -/

/-- A position of a well-formed row's symbol fits an entry: the symbol has at most 36 bytes (R8). -/
theorem RateRow.ncbps_le_of_wf {row : RateRow} (h : row.wf = true) : row.ncbps ≤ 288 := by
  obtain ⟨-, -, -, hle, -⟩ := RateRow.wf_bounds h
  exact hle

theorem RateRow.interleavable_of_wf {row : RateRow} (h : row.wf = true) : interleavable row.ncbps row.nbpsc = true := by
  obtain ⟨hi, -⟩ := RateRow.wf_bounds h
  exact hi

/-- Settles O21: both positions of an entry are below `ncbps`, so their byte indexes fit. -/
theorem tableEntriesFollowTheFormula : Obligations.TableEntriesFollowTheFormula := by
  intro row k hrow hk
  have hn := RateRow.ncbps_le_of_wf hrow
  have hj := destPos_lt (RateRow.interleavable_of_wf hrow) hk
  exact ⟨toNat_byteIndex (by omega), bitMask_toNat k, toNat_byteIndex (p := destPos row.ncbps row.nbpsc k) (by omega),
    bitMask_toNat _⟩

/-- Settles O22: an entry's destination, read as a position, is `destPos`, which is a bijection. -/
theorem destinationPositionsAreAPermutation : Obligations.DestinationPositionsAreAPermutation := by
  intro row hrow pos
  have hn := RateRow.ncbps_le_of_wf hrow
  have hbij := destPos_bijOn (RateRow.interleavable_of_wf hrow)
  have hpos : ∀ k, k < row.ncbps → pos k = destPos row.ncbps row.nbpsc k := fun k hk =>
    byteIndex_add_bitIndex ((hbij.mapsTo hk).trans_le (by omega))
  refine ⟨fun k hk => hpos k hk ▸ hbij.mapsTo hk, fun j hj => ?_⟩
  obtain ⟨k, hk, rfl⟩ := hbij.surjOn hj
  refine ⟨k, ⟨hk, hpos k hk⟩, fun k' ⟨hk', h⟩ => ?_⟩
  exact hbij.injOn hk' hk ((hpos k' hk').symm.trans h)

/-! ## The command -/

/-- The word of R61 decodes to its command: opcode 1, bits 23:0 zero, the rate in bits 27:24 (R51). -/
theorem decode_encode_gentbl {rate : Nat} (h : rate < 16) : decode (encode (.gentbl rate)) = .ok (.gentbl rate) := by
  have hop : field (encode (.gentbl rate)) 31 28 = 1 := Laws.EncodedOpcode.gentbl rate (decide_eq_true h)
  have hzero : field (encode (.gentbl rate)) 23 0 = 0 := by
    simp only [field, encode, BitVec.toNat_ofNat]
    omega
  have hrate : field (encode (.gentbl rate)) 27 24 = rate := by
    simp only [field, encode, BitVec.toNat_ofNat]
    omega
  simp only [decode, hop, hzero, hrate, acceptIfZero, if_true]

theorem raiseInvalidRate_eq_withFault (rate : Nat) (s : State) :
    raiseFault (.invalidRate rate) none s = s.withFault 1 rate := rfl

theorem gentbl_of_rateRow {P : Params} {rate : Nat} {row : RateRow} (h : rateRow P rate = some row) (s : State) :
    gentbl P rate s = complete ((s.fillSlot rate row).setResult row.ncbps) := withRate_some h _ _ _

/-- `fillSlot` writes the first `ncbps` entries (R77). -/
theorem State.entries_fillSlot_lt {s : State} {rate : Nat} {row : RateRow} (hrate : rate < 8) {k : Nat}
    (hk : k < row.ncbps) :
    ((s.fillSlot rate row).slot rate).entries[k]? = some (genEntry row.ncbps row.nbpsc k) := by
  rw [State.slot_fillSlot row hrate, List.getElem?_append_left (by simpa using hk), genTable_getElem? hk]

/-- `fillSlot` keeps the entries at `ncbps` and above (R77). -/
theorem State.entries_fillSlot_ge {s : State} {rate : Nat} {row : RateRow} (hrate : rate < 8) {k : Nat}
    (hk : row.ncbps ≤ k) :
    ((s.fillSlot rate row).slot rate).entries[k]? = (s.slot rate).entries[k]? := by
  rw [State.slot_fillSlot row hrate, List.getElem?_append_right (by simpa using hk), genTable_length,
    List.getElem?_drop, Nat.add_sub_cancel' hk]

/-- Settles O23: the exit of `GENTBL` has the cache of `fillSlot`, and that is the only slot written. -/
theorem gentblFillsItsSlotOnly : Obligations.GentblFillsItsSlotOnly := by
  refine ⟨fun rate s hrate _ => ?_, fun rate row s hrow => ?_⟩
  · exact congrArg Host.Outcome.next ((withRate_none hrate _ _ _).trans (raiseInvalidRate_eq_withFault rate s))
  · have hlt := rateRow_lt hrow
    have hslot : ∀ r, (complete ((s.fillSlot rate row).setResult row.ncbps)).slot r = (s.fillSlot rate row).slot r :=
      State.slot_congr rfl
    refine ⟨decode_encode_gentbl (by omega), _, congrArg Host.Outcome.next (gentbl_of_rateRow hrow s), ?_, ?_, ?_, ?_, rfl⟩
    · rw [hslot, State.slot_fillSlot row hlt]
    · intro k hk
      rw [hslot, State.entries_fillSlot_lt hlt hk]
    · intro k hk
      rw [hslot, State.entries_fillSlot_ge hlt hk]
    · intro r hr
      rw [hslot, State.slot_fillSlot_other row hr.symm]

end Sys2Proof.Machine
end

section
/-! PROOFS. The transforms of one symbol: their entries in any order (O28), their result ORed into the output (O27), where
each coded bit goes (O25), and that the two are inverses (O26). -/

namespace Sys2Proof.Machine

/-! ## Any table -/

theorem interleave_perm {T T' : List Entry} (h : T.Perm T') (inp out : List Byte) :
    interleave T inp out = interleave T' inp out :=
  List.Perm.foldl_eq (rcomm := interleaveStep_rightCommutative inp) h out

/-- Settles O28: the entries' steps commute, for `Deinterleave` after each entry is flipped. -/
theorem entryOrderDoesNotMatter : Obligations.EntryOrderDoesNotMatter := by
  intro T T' inp out h
  refine ⟨interleave_perm h inp out, ?_⟩
  rw [deinterleave_eq_interleave_flip, deinterleave_eq_interleave_flip, interleave_perm (h.map Entry.flip)]

/-- A conditional OR into the second of two ORed buffers is one into their OR. -/
theorem orIf_zipWith_or (set : Bool) (i : Nat) (m : Byte) (a b : List Byte) :
    orIf set i m (List.zipWith (· ||| ·) a b) = List.zipWith (· ||| ·) a (orIf set i m b) := by
  cases set with
  | false => rfl
  | true =>
    simp only [orIf_eq_modify, if_true]
    refine List.ext_getElem? fun j => ?_
    rw [List.getElem?_modify, List.getElem?_zipWith, List.getElem?_zipWith, List.getElem?_modify]
    by_cases hij : i = j
    · cases a[j]? <;> cases b[j]? <;> simp [hij, BitVec.or_assoc]
    · cases a[j]? <;> cases b[j]? <;> simp [hij]

theorem zipWith_or_zeros (out : List Byte) :
    List.zipWith (· ||| ·) out (List.replicate out.length (0 : Byte)) = out := by
  induction out with
  | nil => rfl
  | cons b out ih => simpa [List.replicate_succ] using ih

theorem interleave_eq_zipWith_or (T : List Entry) (inp out : List Byte) :
    interleave T inp out =
      List.zipWith (· ||| ·) out (interleave T inp (List.replicate out.length 0)) := by
  induction T with
  | nil => exact (zipWith_or_zeros out).symm
  | cons e T ih => rw [interleave_cons_last, interleave_cons_last, ih, interleaveStep, interleaveStep, orIf_zipWith_or]

/-- Settles O27: by induction on the table, the last entry's OR passing into the zero-based result. -/
theorem transformsOrIntoTheOldOutput : Obligations.TransformsOrIntoTheOldOutput := by
  intro T inp out
  refine ⟨interleave_eq_zipWith_or T inp out, ?_⟩
  rw [deinterleave_eq_interleave_flip, deinterleave_eq_interleave_flip, interleave_eq_zipWith_or]

/-! ## The table of a row -/

/-- A table of pairs `(src k, dst k)` with distinct destinations moves each paired bit into a zeroed output. -/
theorem bitAt_interleave_into_zeros {n nb : Nat} {src dst : Nat → Nat} (hnb : nb ≤ 256)
    (hsrc : ∀ k < n, src k < 8 * nb) (hdst : ∀ k < n, dst k < 8 * nb) (hinj : Set.InjOn dst (Set.Iio n))
    (inp : List Byte) {k : Nat} (hk : k < n) :
    bitAt (interleave ((List.range n).map fun k => entryOf (src k) (dst k)) inp (List.replicate nb 0)) (dst k) =
      bitAt inp (src k) := by
  have hpairs : ∀ q ∈ (List.range n).map fun k => (src k, dst k),
      q.1 < 2048 ∧ q.2 < 2048 ∧ q.2 < 8 * (List.replicate nb (0 : Byte)).length := by
    simp only [List.forall_mem_map, List.mem_range, List.length_replicate]
    intro i hi
    have := hsrc i hi
    have := hdst i hi
    omega
  have hzero : bitAt (List.replicate nb (0 : Byte)) (dst k) = false := bitAt_replicate_zero nb (dst k)
  have hmove := bitAt_interleave _ inp (List.replicate nb 0) (dst k) hpairs
  rw [List.map_map, hzero, Bool.false_or, List.any_map] at hmove
  refine hmove.trans (Bool.eq_iff_iff.mpr ?_)
  simp only [List.any_eq_true, List.mem_range, Function.comp_apply, Bool.and_eq_true, decide_eq_true_eq]
  constructor
  · rintro ⟨i, hi, hbit, hdi⟩
    rwa [hinj hk hi hdi]
  · exact fun hbit => ⟨k, hk, hbit, rfl⟩

/-- The table read in the other direction brings the bit at `j(k)` back to `k` (R84). -/
theorem genTable_map_flip (ncbps nbpsc : Nat) :
    (genTable ncbps nbpsc).map Entry.flip = (List.range ncbps).map fun k => entryOf (destPos ncbps nbpsc k) k := by
  rw [genTable, List.map_map]
  rfl

/-- Settles O25: the destinations of both directions are distinct. -/
theorem transformsMoveBitsAsTheTableSays : Obligations.TransformsMoveBitsAsTheTableSays := by
  intro row inp hrow _ T zeros k hk
  obtain ⟨hi, hn, -, hle, -⟩ := RateRow.wf_bounds hrow
  have hnb : 8 * (row.ncbps / 8) = row.ncbps := by omega
  have hpos : ∀ k < row.ncbps, k < 8 * (row.ncbps / 8) := by omega
  have hdest : ∀ k < row.ncbps, destPos row.ncbps row.nbpsc k < 8 * (row.ncbps / 8) := by
    rw [hnb]
    exact fun _ => destPos_lt hi
  constructor
  · exact bitAt_interleave_into_zeros (by omega) hpos hdest (destPos_injOn hi) inp hk
  · rw [deinterleave_eq_interleave_flip, genTable_map_flip]
    exact bitAt_interleave_into_zeros (by omega) hdest hpos (Set.injOn_id _) inp hk

theorem map_destPos_perm {ncbps nbpsc : Nat} (h : interleavable ncbps nbpsc = true) :
    ((List.range ncbps).map (destPos ncbps nbpsc)).Perm (List.range ncbps) := by
  have hbij := destPos_bijOn h
  have hnodup : ((List.range ncbps).map (destPos ncbps nbpsc)).Nodup :=
    List.Nodup.map_on (fun k hk k' hk' => hbij.injOn (List.mem_range.mp hk) (List.mem_range.mp hk')) List.nodup_range
  refine (List.perm_ext_iff_of_nodup hnodup List.nodup_range).mpr fun j => ?_
  simp only [List.mem_map, List.mem_range]
  exact ⟨fun ⟨k, hk, hj⟩ => hj ▸ hbij.mapsTo hk, fun hj => hbij.surjOn hj⟩

/-- Settles O26: both round trips bring each bit back (O25), and the destinations list every position once. -/
theorem deinterleavingInvertsInterleaving : Obligations.DeinterleavingInvertsInterleaving := by
  intro row x hrow hx T zeros setBits
  obtain ⟨hi, hn, -⟩ := RateRow.wf_bounds hrow
  have hmove := fun inp (hl : inp.length = row.ncbps / 8) k hk =>
    transformsMoveBitsAsTheTableSays row inp hrow hl k hk
  have hlen : zeros.length = row.ncbps / 8 := List.length_replicate
  have hil : (interleave T x zeros).length = row.ncbps / 8 := by rw [interleave_length, hlen]
  have hdl : (deinterleave T x zeros).length = row.ncbps / 8 := by rw [deinterleave_length, hlen]
  have hback : deinterleave T (interleave T x zeros) zeros = x := by
    refine eq_of_bitAt (by rw [deinterleave_length, hlen, hx]) fun k hk => ?_
    rw [deinterleave_length, hlen] at hk
    rw [(hmove _ hil k (by omega)).2, (hmove x hx k (by omega)).1]
  have hforth : interleave T (deinterleave T x zeros) zeros = x := by
    refine eq_of_bitAt (by rw [interleave_length, hlen, hx]) fun j hj => ?_
    rw [interleave_length, hlen] at hj
    obtain ⟨k, hk, rfl⟩ := (destPos_bijOn hi).surjOn (show j < row.ncbps by omega)
    rw [(hmove _ hdl k hk).1, (hmove x hx k hk).2]
  have hcount : ∀ y : List Byte, y.length = row.ncbps / 8 → setBits (interleave T y zeros) = setBits y := by
    intro y hy
    calc setBits (interleave T y zeros)
      _ = ((List.range row.ncbps).map (destPos row.ncbps row.nbpsc)).countP (bitAt (interleave T y zeros)) :=
        ((map_destPos_perm hi).countP_eq _).symm
      _ = setBits y := by
        rw [List.countP_map]
        refine List.countP_congr fun k hk => ?_
        rw [Function.comp_apply, (hmove y hy k (List.mem_range.mp hk)).1]
  refine ⟨hback, hforth, hcount x hx, ?_⟩
  rw [← hcount _ hdl, hforth]

end Sys2Proof.Machine
end

section
/-! PROOFS. `ILV` (O29) and `DILV` (O30) at the machine: one command over two transforms. -/

namespace Sys2Proof.Machine

/-! ## The words -/

/-- The fields of a word with an opcode, a rate and no other bit set (R51). -/
theorem fields_of_toNat_eq {w : Word} {op rate : Nat} (h : w.toNat = op * 2 ^ 28 + rate * 2 ^ 24) (hrate : rate < 16) :
    field w 31 28 = op ∧ field w 27 24 = rate ∧ field w 23 0 = 0 := by
  have := w.isLt
  simp only [field]
  omega

theorem decode_encode_ilv {rate : Nat} (h : rate < 16) : decode (encode (.ilv rate)) = .ok (.ilv rate) := by
  have hw : (encode (.ilv rate)).toNat = 2 * 2 ^ 28 + rate * 2 ^ 24 := by
    simp only [encode, BitVec.toNat_ofNat]
    omega
  obtain ⟨hop, hrate, hzero⟩ := fields_of_toNat_eq hw h
  simp only [decode, hop, hrate, hzero, acceptIfZero, if_true]

theorem decode_encode_dilv {rate : Nat} (h : rate < 16) : decode (encode (.dilv rate)) = .ok (.dilv rate) := by
  have hw : (encode (.dilv rate)).toNat = 3 * 2 ^ 28 + rate * 2 ^ 24 := by
    simp only [encode, BitVec.toNat_ofNat]
    omega
  obtain ⟨hop, hrate, hzero⟩ := fields_of_toNat_eq hw h
  simp only [decode, hop, hrate, hzero, acceptIfZero, if_true]

/-! ## The command both share -/

section SymbolCommand

variable {P : Params} {f : List Entry → List Byte → List Byte → List Byte} {rate : Nat} {row : RateRow} {s : State}

theorem symbolCommand_of_invalidRate (h : 8 ≤ rate) : symbolCommand P f rate s = s.withFault 1 rate :=
  withRate_none h _ _ _

theorem symbolCommand_of_invalidTable (hrate : rate < 8) (hv : (s.slot rate).valid = false) :
    symbolCommand P f rate s = s.withFault 5 rate := by
  obtain ⟨row, hrow⟩ := rateRow_exists P hrate
  rw [symbolCommand, withRate_some hrow, requireTable_invalid hv]
  rfl

theorem symbolCommand_of_lengthMismatch (hrow : rateRow P rate = some row) (hv : (s.slot rate).valid = true)
    (hl : s.sibLen.toNat ≠ row.ncbps / 8 ∨ s.sobLen.toNat ≠ row.ncbps / 8) :
    symbolCommand P f rate s = s.withFault 2 (row.ncbps / 8) := by
  rw [symbolCommand, withRate_some hrow, requireTable_valid hv]
  by_cases hi : (s.len .sib).toNat = row.ncbps / 8
  · have ho : (s.len .sob).toNat ≠ row.ncbps / 8 := hl.resolve_left (absurd hi)
    rw [requireLen_eq hi, requireLen_ne ho]
    rfl
  · rw [requireLen_ne hi]
    rfl

/-- `SOB[0:nb)` holds the output after the exit, and every other byte stays (R85, R86). -/
theorem symbolExit_byte (hlen : ∀ T inp out, (f T inp out).length = out.length) (hcap : row.ncbps / 8 ≤ Space.sob.cap)
    (sp : Space) (i : Nat) :
    (symbolExit f rate row s).byte sp i =
      if .sob = sp ∧ i < row.ncbps / 8 then (symbolOutput f rate row s).getD i 0 else s.byte sp i := by
  have hsize : (symbolOutput f rate row s).length = row.ncbps / 8 := by rw [symbolOutput, hlen, State.bytes_length]
  rw [State.byte_congr symbolExit_mem (symbolExit_epoch.trans (State.setBytes_epoch s .sob _).symm),
    State.byte_setBytes _ _ _ _ _ (hsize.trans_le hcap), hsize]

theorem symbolExit_sameButBuffers : State.SameButBuffers (s.withDone (row.ncbps / 8)) (symbolExit f rate row s) := by
  rw [symbolExit, State.setBytes_eq_withMem]
  rfl

/-- With its slot valid and both lengths exact, the command writes its output to `SOB`, and else only the outcome
registers (R85, R86). -/
theorem symbolCommand_writes_sob (hP : P.rates.wf = true) (hlen : ∀ T inp out, (f T inp out).length = out.length)
    (hrow : rateRow P rate = some row) (hv : (s.slot rate).valid = true) (hi : s.sibLen.toNat = row.ncbps / 8)
    (ho : s.sobLen.toNat = row.ncbps / 8) :
    (∀ i, i < row.ncbps / 8 → (symbolCommand P f rate s).byte .sob i = (symbolOutput f rate row s).getD i 0) ∧
    (∀ sp i, ¬ (sp = .sob ∧ i < row.ncbps / 8) → (symbolCommand P f rate s).byte sp i = s.byte sp i) ∧
    State.SameButBuffers (s.withDone (row.ncbps / 8)) (symbolCommand P f rate s) := by
  have hn := RateRow.ncbps_le_of_wf (RateTable.row_wf hP hrow)
  have hcap : row.ncbps / 8 ≤ Space.sob.cap := show row.ncbps / 8 ≤ 36 by omega
  rw [symbolCommand_completes hrow hv hi ho]
  refine ⟨fun i h => ?_, fun sp i h => ?_, symbolExit_sameButBuffers⟩
  · rw [symbolExit_byte hlen hcap, if_pos ⟨rfl, h⟩]
  · rw [symbolExit_byte hlen hcap, if_neg fun hsob => h ⟨hsob.1.symm, hsob.2⟩]

end SymbolCommand

/-! ## The commands -/

theorem exec_ilv (rate : Nat) (s : State) : exec (.ilv rate) s = .next (symbolCommand block interleave rate s) := rfl

theorem exec_dilv (rate : Nat) (s : State) : exec (.dilv rate) s = .next (symbolCommand block deinterleave rate s) := rfl

/-- Settles O29: `ILV` is the symbol command of `Interleave`. -/
theorem ilvInterleavesOneSymbolIntoSob : Obligations.IlvInterleavesOneSymbolIntoSob := by
  refine ⟨fun rate s h _ => ?_, fun rate s h hv => ?_, fun rate row s hrow hv hl => ?_,
    fun rate row s hrow hv hi ho => ⟨?_, _, exec_ilv rate s, ?_⟩⟩
  · rw [exec_ilv, symbolCommand_of_invalidRate h]
  · rw [exec_ilv, symbolCommand_of_invalidTable (by omega) hv]
  · rw [exec_ilv, symbolCommand_of_lengthMismatch hrow hv hl]
  · exact decode_encode_ilv ((rateRow_lt hrow).trans (by decide))
  · exact symbolCommand_writes_sob block_rates_wf interleave_length hrow hv hi ho

/-- Settles O30: `DILV` is the symbol command of `Deinterleave`. -/
theorem dilvDeinterleavesOneSymbolIntoSob : Obligations.DilvDeinterleavesOneSymbolIntoSob := by
  refine ⟨fun rate s h _ => ?_, fun rate s h hv => ?_, fun rate row s hrow hv hl => ?_,
    fun rate row s hrow hv hi ho => ⟨?_, _, exec_dilv rate s, ?_⟩⟩
  · rw [exec_dilv, symbolCommand_of_invalidRate h]
  · rw [exec_dilv, symbolCommand_of_invalidTable (by omega) hv]
  · rw [exec_dilv, symbolCommand_of_lengthMismatch hrow hv hl]
  · exact decode_encode_dilv ((rateRow_lt hrow).trans (by decide))
  · exact symbolCommand_writes_sob block_rates_wf deinterleave_length hrow hv hi ho

end Sys2Proof.Machine
end

section
/-! PROOFS. The lengths of a packet: exact divisions (O33), the tail byte (O34), and `CLEN` (O36). -/

namespace Sys2Proof.Machine

/-! ## Exact lengths -/

theorem RateRow.eight_dvd_ncbps_of_wf {row : RateRow} (h : row.wf = true) : 8 ∣ row.ncbps := by
  obtain ⟨-, h16, -⟩ := RateRow.wf_bounds h
  omega

theorem RateRow.ndbps_pos_of_wf {row : RateRow} (h : row.wf = true) : 0 < row.ndbps := by
  obtain ⟨-, -, -, -, hpos, -⟩ := RateRow.wf_bounds h
  exact hpos

/-- The bits of `nsym` symbols hold the `nbits` of the message. -/
theorem le_ceilDiv_mul (a : Nat) {b : Nat} (hb : 0 < b) : a ≤ ceilDiv a b * b := by
  rw [ceilDiv, ← Nat.ceilDiv_eq_add_pred_div, Nat.mul_comm]
  exact le_smul_ceilDiv hb

section Lengths

variable {row : RateRow} {length : Nat}

/-- Where 8 divides `ndata`, the message fills its bytes. -/
theorem eight_mul_decMsgLen (h : (packetLengths row.ndbps row.ncbps length).nsym * row.ndbps % 8 = 0) :
    8 * (packetLengths row.ndbps row.ncbps length).decMsgLen =
      (packetLengths row.ndbps row.ncbps length).nsym * row.ndbps :=
  Nat.mul_div_cancel' (Nat.dvd_of_mod_eq_zero h)

/-- Where 8 divides `ndata`, the coded message is `nsym` symbols of `ncbps div 8` bytes. -/
theorem decMsgLen_mul_ncbps (hn : 8 ∣ row.ncbps)
    (h : (packetLengths row.ndbps row.ncbps length).nsym * row.ndbps % 8 = 0) :
    (packetLengths row.ndbps row.ncbps length).decMsgLen * row.ncbps =
      (packetLengths row.ndbps row.ncbps length).nsym * (row.ncbps / 8) * row.ndbps := by
  calc (packetLengths row.ndbps row.ncbps length).decMsgLen * row.ncbps
      = 8 * (packetLengths row.ndbps row.ncbps length).decMsgLen * (row.ncbps / 8) := by
        rw [Nat.mul_comm 8, Nat.mul_assoc, Nat.mul_div_cancel' hn]
    _ = (packetLengths row.ndbps row.ncbps length).nsym * (row.ncbps / 8) * row.ndbps := by
        rw [eight_mul_decMsgLen h]
        ring

/-- The second division is exact where the first is (R94). -/
theorem exactFor_iff (hn : 8 ∣ row.ncbps) :
    exactFor row length ↔ (packetLengths row.ndbps row.ncbps length).nsym * row.ndbps % 8 = 0 := by
  have hboth : exactFor row length ↔ (packetLengths row.ndbps row.ncbps length).nsym * row.ndbps % 8 = 0 ∧
      (packetLengths row.ndbps row.ncbps length).decMsgLen * row.ncbps % row.ndbps = 0 := by
    simp only [exactFor, PacketLengths.exact, Bool.and_eq_true, beq_iff_eq]
    rfl
  exact hboth.trans (and_iff_left_of_imp fun h => by rw [decMsgLen_mul_ncbps hn h, Nat.mul_mod_left])

theorem encMsgLen_of_exactFor (hrow : row.wf = true) (hx : exactFor row length) :
    (packetLengths row.ndbps row.ncbps length).encMsgLen =
      (packetLengths row.ndbps row.ncbps length).nsym * (row.ncbps / 8) := by
  have hn := RateRow.eight_dvd_ncbps_of_wf hrow
  have hcoded := decMsgLen_mul_ncbps hn ((exactFor_iff hn).mp hx)
  exact (congrArg (· / row.ndbps) hcoded).trans (Nat.mul_div_cancel _ (RateRow.ndbps_pos_of_wf hrow))

/-- The coded message has the row's expansion (R94). -/
theorem encMsgLen_mul_ndbps (hrow : row.wf = true) (hx : exactFor row length) :
    (packetLengths row.ndbps row.ncbps length).encMsgLen * row.ndbps =
      (packetLengths row.ndbps row.ncbps length).decMsgLen * row.ncbps := by
  have hn := RateRow.eight_dvd_ncbps_of_wf hrow
  rw [encMsgLen_of_exactFor hrow hx, decMsgLen_mul_ncbps hn ((exactFor_iff hn).mp hx)]

/-- The message has room for the payload's bits, the service field and the tail (R107). -/
theorem tail_le_decMsgLen (hrow : row.wf = true) (hx : exactFor row length) :
    8 * (length + 2) + 6 ≤ 8 * (packetLengths row.ndbps row.ncbps length).decMsgLen := by
  rw [eight_mul_decMsgLen ((exactFor_iff (RateRow.eight_dvd_ncbps_of_wf hrow)).mp hx)]
  calc 8 * (length + 2) + 6 = 16 + 8 * length + 6 := by omega
    _ ≤ _ := le_ceilDiv_mul _ (RateRow.ndbps_pos_of_wf hrow)

theorem length_add_two_lt_decMsgLen (hrow : row.wf = true) (hx : exactFor row length) :
    length + 2 < (packetLengths row.ndbps row.ncbps length).decMsgLen := by
  have := tail_le_decMsgLen hrow hx
  omega

end Lengths

/-- Settles O33: with `ncbps = 8*nb` and `8 * dec_msg_len = ndata`, both divisions come out even. -/
theorem exactLengthsAreWholeSymbols : Obligations.ExactLengthsAreWholeSymbols := by
  intro row length hrow l
  have hiff : exactFor row length ↔ l.nsym * row.ndbps % 8 = 0 := exactFor_iff (RateRow.eight_dvd_ncbps_of_wf hrow)
  exact ⟨hiff, fun hx =>
    ⟨encMsgLen_of_exactFor hrow hx, eight_mul_decMsgLen (hiff.mp hx), encMsgLen_mul_ndbps hrow hx⟩⟩

/-- Settles O34: `ndata` is at least `nbits`, six bits more than `length + 2` bytes. -/
theorem tailByteLiesInsideTheMessage : Obligations.TailByteLiesInsideTheMessage := by
  intro row length hrow hx l
  have hlt := length_add_two_lt_decMsgLen hrow hx
  exact ⟨tail_le_decMsgLen hrow hx, hlt, hlt⟩

/-! ## The words with a length -/

/-- The fields of a word with an opcode, a rate, a seed, a length and no other bit set (R52, R53). -/
theorem packetFields_of_toNat_eq {w : Word} {op rate seed length : Nat}
    (h : w.toNat = op * 2 ^ 28 + rate * 2 ^ 24 + seed * 2 ^ 17 + length) (hrate : rate < 16) (hseed : seed < 128)
    (hlength : length < 4096) :
    field w 31 28 = op ∧ field w 27 24 = rate ∧ field w 23 17 = seed ∧ field w 16 12 = 0 ∧
      field w 23 12 = seed * 2 ^ 5 ∧ field w 11 0 = length := by
  have := w.isLt
  simp only [field]
  omega

theorem decode_encode_clen {rate length : Nat} (hrate : rate < 16) (hlength : length < 4096) :
    decode (encode (.clen rate length)) = .ok (.clen rate length) := by
  have hw : (encode (.clen rate length)).toNat = 4 * 2 ^ 28 + rate * 2 ^ 24 + 0 * 2 ^ 17 + length := by
    simp only [encode, BitVec.toNat_ofNat]
    omega
  obtain ⟨hop, hr, -, -, hzero, hl⟩ := packetFields_of_toNat_eq hw hrate (by decide) hlength
  simp only [decode, hop, hr, hzero, hl, acceptIfZero, Nat.zero_mul, if_true]

theorem decode_encode_penc {rate seed length : Nat} (hrate : rate < 16) (hseed : seed < 128) (hlength : length < 4096) :
    decode (encode (.penc rate seed length)) = .ok (.penc rate seed length) := by
  have hw : (encode (.penc rate seed length)).toNat = 5 * 2 ^ 28 + rate * 2 ^ 24 + seed * 2 ^ 17 + length := by
    simp only [encode, BitVec.toNat_ofNat]
    omega
  obtain ⟨hop, hr, hs, hzero, -, hl⟩ := packetFields_of_toNat_eq hw hrate hseed hlength
  simp only [decode, hop, hr, hs, hzero, hl, acceptIfZero, if_true]

theorem decode_encode_pdec {rate seed length : Nat} (hrate : rate < 16) (hseed : seed < 128) (hlength : length < 4096) :
    decode (encode (.pdec rate seed length)) = .ok (.pdec rate seed length) := by
  have hw : (encode (.pdec rate seed length)).toNat = 6 * 2 ^ 28 + rate * 2 ^ 24 + seed * 2 ^ 17 + length := by
    simp only [encode, BitVec.toNat_ofNat]
    omega
  obtain ⟨hop, hr, hs, hzero, -, hl⟩ := packetFields_of_toNat_eq hw hrate hseed hlength
  simp only [decode, hop, hr, hs, hzero, hl, acceptIfZero, if_true]

/-! ## `CLEN` -/

theorem exec_clen (rate length : Nat) (s : State) : exec (.clen rate length) s = .next (clen block rate length s) := rfl

theorem clen_of_invalidRate {P : Params} {rate : Nat} (h : 8 ≤ rate) (length : Nat) (s : State) :
    clen P rate length s = s.withFault 1 rate := withRate_none h _ _ _

theorem clen_of_inexact {P : Params} {rate length : Nat} {row : RateRow} (hrow : rateRow P rate = some row)
    (hx : ¬ exactFor row length) (s : State) :
    clen P rate length s = s.withFault 6 (packetLengths row.ndbps row.ncbps length).nsym :=
  (withRate_some hrow _ _ _).trans (withLengths_inexact hx _ _ _)

theorem clen_completes {P : Params} {rate length : Nat} {row : RateRow} (hrow : rateRow P rate = some row)
    (hx : exactFor row length) (s : State) :
    clen P rate length s = s.withDone (packetLengths row.ndbps row.ncbps length).encMsgLen :=
  (withRate_some hrow _ _ _).trans (withLengths_exact hx _ _ _)

/-- Settles O36: the two conditions on `ndata` are those of exact lengths, by O33. -/
theorem clenReturnsTheEncodedLengthOnly : Obligations.ClenReturnsTheEncodedLengthOnly := by
  refine ⟨fun rate length s h _ => ?_, fun rate length row s hrow hlength => ?_⟩
  · rw [exec_clen, clen_of_invalidRate h]
  · intro nbits nsym decMsgLen
    have hwf := RateTable.row_wf block_rates_wf hrow
    have hiff : exactFor row length ↔ nsym * row.ndbps % 8 = 0 := exactFor_iff (RateRow.eight_dvd_ncbps_of_wf hwf)
    refine ⟨decode_encode_clen ((rateRow_lt hrow).trans (by decide)) (by omega), fun h => ?_, fun h => ?_⟩
    · exact congrArg Host.Outcome.next (clen_of_inexact hrow (mt hiff.mp h) s)
    · exact congrArg Host.Outcome.next (clen_completes hrow (hiff.mpr h) s)

end Sys2Proof.Machine
end

section
/-! PROOFS. The steps of the packet pipeline: the assembled message (O37), its tail bits (O39), the interleaved symbols
(O40), decoding (O41), and decoding after encoding (O46). -/

namespace Sys2Proof.Machine

/-! ## The assembled message -/

theorem assemble_length {n : Nat} {payload : List Byte} (h : payload.length + 2 ≤ n) :
    (assemble n payload).length = n := by
  simp only [assemble, List.length_append, List.length_cons, List.length_nil, List.length_map, List.length_replicate]
  omega

theorem getD_map_rev8 (bytes : List Byte) (i : Nat) : (bytes.map rev8).getD i 0 = rev8 (bytes.getD i 0) :=
  List.getD_map bytes 0 rev8

/-- After the service field stand the reversed payload bytes. -/
theorem assemble_drop_take (n : Nat) (payload : List Byte) :
    ((assemble n payload).drop 2).take payload.length = payload.map rev8 := by
  simp [assemble]

theorem assemble_getD_payload (n : Nat) {payload : List Byte} {i : Nat} (h : i < payload.length) :
    (assemble n payload).getD (2 + i) 0 = rev8 (payload.getD i 0) := by
  rw [← getD_map_rev8, ← assemble_drop_take n payload, List.getD_eq_getElem?_getD, List.getD_eq_getElem?_getD,
    List.getElem?_take_of_lt h, List.getElem?_drop]

/-- Settles O37: the three parts one after another. -/
theorem messageIsServicePayloadAndZeros : Obligations.MessageIsServicePayloadAndZeros := by
  intro n payload h
  refine ⟨assemble_length h, rfl, rfl, fun i hi => assemble_getD_payload n hi, fun i hi hin => ?_⟩
  have hfront : ([0x00, 0x00] ++ payload.map rev8).length = payload.length + 2 := by
    rw [List.length_append, List.length_map]
    exact Nat.add_comm _ _
  rw [assemble, List.getD_append_right _ _ _ _ (by omega), List.getD_replicate _ (by omega)]

/-! ## The scrambler and the tail -/

@[simp] theorem scramble_length (P : Params) (x : List Byte) (seed : Nat) : (scramble P x seed).length = x.length := by
  rw [scramble, List.length_zipWith, P.collab.keystream_length, Nat.min_self]

/-- A byte XORed twice with its keystream byte is itself (R111). -/
theorem scramble_scramble (P : Params) (x : List Byte) (seed : Nat) : scramble P (scramble P x seed) seed = x := by
  refine List.ext_getElem (by simp) fun i hi hi' => ?_
  simp [scramble, P.collab.keystream_length]

/-- The scrambler is local: the first bytes of its output depend on the first bytes of its input (R111). -/
theorem take_scramble_congr (P : Params) {x y : List Byte} {n : Nat} (hlen : x.length = y.length)
    (h : x.take n = y.take n) (seed : Nat) : (scramble P x seed).take n = (scramble P y seed).take n := by
  rw [scramble, scramble, hlen, List.take_zipWith, List.take_zipWith, h]

@[simp] theorem maskTail_length (length : Nat) (x : List Byte) : (maskTail length x).length = x.length :=
  List.length_modify _ _ _

theorem maskTail_getElem?_other {length i : Nat} (h : i ≠ length + 2) (x : List Byte) :
    (maskTail length x)[i]? = x[i]? := by
  simp [maskTail, h.symm]

theorem maskTail_take (length : Nat) (x : List Byte) : (maskTail length x).take (length + 2) = x.take (length + 2) := by
  refine List.ext_getElem? fun i => ?_
  rw [List.getElem?_take, List.getElem?_take]
  split
  · exact maskTail_getElem?_other (by omega) x
  · rfl

theorem maskTail_getD {length : Nat} {x : List Byte} (h : length + 2 < x.length) (d : Byte) :
    (maskTail length x).getD (length + 2) d = x.getD (length + 2) 0 &&& 3 := by
  simp [maskTail, List.getD_eq_getElem?_getD, h]

theorem scrambledMessage_length (P : Params) {n : Nat} (seed : Nat) {payload : List Byte}
    (h : payload.length + 2 ≤ n) : (scrambledMessage P n seed payload).length = n := by
  rw [scrambledMessage, maskTail_length, scramble_length, assemble_length h]

theorem getLsbD_three (b : Nat) : (3 : Byte).getLsbD b = decide (b < 2) := by
  have hmask : (3 : Byte) = BitVec.ofNat 8 (2 ^ 2 - 1) := rfl
  rw [hmask, BitVec.getLsbD_ofNat, Nat.testBit_two_pow_sub_one, ← Bool.decide_and, decide_eq_decide]
  omega

/-- Settles O39: the mask is 3 at the tail byte, and that byte is the only one it touches. -/
theorem tailBitsAreZeroForEverySeed : Obligations.TailBitsAreZeroForEverySeed := by
  intro P n seed payload h scrb out
  have hlen : payload.length + 2 < scrb.length := by rwa [scramble_length, assemble_length h.le]
  have htail (d : Byte) (b : Nat) : (out.getD (payload.length + 2) d).getLsbD b =
      ((scrb.getD (payload.length + 2) 0).getLsbD b && decide (b < 2)) := by
    rw [← getLsbD_three, ← BitVec.getLsbD_and, ← maskTail_getD hlen d]
    rfl
  refine ⟨fun b hb => ?_, fun b hb => ?_, fun i hi => maskTail_getElem?_other hi scrb⟩
  · rw [htail, decide_eq_false (by omega), Bool.and_false]
  · rw [htail, decide_eq_true hb, Bool.and_true]

/-! ## Symbols -/

section Symbols

variable {f : List Entry → List Byte → List Byte → List Byte} {T : List Entry} {nb nsym : Nat} {buf : List Byte}

theorem perSymbol_succ (f : List Entry → List Byte → List Byte → List Byte) (T : List Entry) (nb nsym : Nat)
    (buf : List Byte) :
    perSymbol f T nb (nsym + 1) buf = perSymbol f T nb nsym buf ++ f T (chunk nb buf nsym) (List.replicate nb 0) := by
  simp [perSymbol, List.range_succ]

/-- Chunk `m` of the output is the transform of chunk `m` of the input: the chunks are of one size (R101, R103). -/
theorem chunk_perSymbol (hf : ∀ T inp out, (f T inp out).length = out.length) {m : Nat} (hm : m < nsym) :
    chunk nb (perSymbol f T nb nsym buf) m = f T (chunk nb buf m) (List.replicate nb 0) := by
  induction nsym with
  | zero => omega
  | succ n ih =>
    have hsym : (f T (chunk nb buf n) (List.replicate nb 0)).length = nb := by rw [hf, List.length_replicate]
    have hpre : (perSymbol f T nb n buf).length = n * nb := perSymbol_length f T nb n buf hf
    rw [perSymbol_succ, chunk]
    obtain hlt | rfl := Nat.lt_succ_iff_lt_or_eq.mp hm
    · have hfits : m * nb + nb ≤ n * nb := by rw [← Nat.succ_mul]; exact Nat.mul_le_mul_right nb hlt
      rw [List.drop_append_of_le_length (by omega), List.take_append_of_le_length (by rw [List.length_drop]; omega)]
      exact ih hlt
    · rw [← hpre, List.drop_left, List.take_of_length_le hsym.le]

/-- A buffer is its chunks, joined. -/
theorem flatMap_chunk (nb nsym : Nat) (buf : List Byte) :
    (List.range nsym).flatMap (chunk nb buf) = buf.take (nsym * nb) := by
  induction nsym with
  | zero => simp
  | succ n ih =>
    rw [List.range_succ, List.flatMap_append, ih, Nat.succ_mul, List.take_add, List.flatMap_singleton, chunk]

theorem chunk_length (h : buf.length = nsym * nb) {m : Nat} (hm : m < nsym) : (chunk nb buf m).length = nb := by
  have hfits : m * nb + nb ≤ nsym * nb := by rw [← Nat.succ_mul]; exact Nat.mul_le_mul_right nb hm
  rw [chunk, List.length_take, List.length_drop]
  omega

/-- A transform undone symbol by symbol is undone on the whole buffer. -/
theorem perSymbol_perSymbol {g : List Entry → List Byte → List Byte → List Byte}
    (hf : ∀ T inp out, (f T inp out).length = out.length)
    (hgf : ∀ x : List Byte, x.length = nb → g T (f T x (List.replicate nb 0)) (List.replicate nb 0) = x)
    (hbuf : buf.length = nsym * nb) : perSymbol g T nb nsym (perSymbol f T nb nsym buf) = buf := by
  calc perSymbol g T nb nsym (perSymbol f T nb nsym buf)
      = (List.range nsym).flatMap (chunk nb buf) := by
        refine List.flatMap_congr fun m hm => ?_
        rw [chunk_perSymbol hf (List.mem_range.mp hm), hgf _ (chunk_length hbuf (List.mem_range.mp hm))]
    _ = buf := by rw [flatMap_chunk, ← hbuf, List.take_length]

end Symbols

/-- Settles O40: the channel bits are `Interleave` on each symbol of the coded buffer. -/
theorem eachSymbolIsInterleavedOnItsOwn : Obligations.EachSymbolIsInterleavedOnItsOwn :=
  fun P row T l seed payload =>
    ⟨encodePacket_length P row T l seed payload, fun _ hm => chunk_perSymbol interleave_length hm⟩

/-! ## Decoding -/

/-- The payload depends on the first `length + 2` message bytes (R103). -/
theorem extractPayload_congr {length : Nat} {x y : List Byte} (h : x.take (length + 2) = y.take (length + 2)) :
    extractPayload length x = extractPayload length y := by
  have hpre (z : List Byte) : (z.drop 2).take length = (z.take (length + 2)).drop 2 := by
    rw [List.drop_take, Nat.add_sub_cancel]
  rw [extractPayload, extractPayload, hpre, hpre, h]

theorem extractPayload_assemble (n : Nat) (payload : List Byte) :
    extractPayload payload.length (assemble n payload) = payload := by
  rw [extractPayload, assemble_drop_take, List.map_map, rev8_involutive.comp_self, List.map_id]

theorem extractPayload_length {length : Nat} {ds : List Byte} (h : length + 2 ≤ ds.length) :
    (extractPayload length ds).length = length := by
  rw [extractPayload, List.length_map, List.length_take, List.length_drop]
  omega

theorem extractPayload_getD {length i : Nat} (hi : i < length) (ds : List Byte) :
    (extractPayload length ds).getD i 0 = rev8 (ds.getD (2 + i) 0) := by
  have hget : ((ds.drop 2).take length).getD i 0 = ds.getD (2 + i) 0 := by
    rw [List.getD_eq_getElem?_getD, List.getElem?_take_of_lt hi, List.getElem?_drop, List.getD_eq_getElem?_getD]
  rw [← hget, ← getD_map_rev8, extractPayload]

theorem scramble_getD (P : Params) {x : List Byte} {i : Nat} (h : i < x.length) (seed : Nat) :
    (scramble P x seed).getD i 0 = x.getD i 0 ^^^ (P.collab.keystream seed x.length).getD i 0 := by
  simp [scramble, List.getD_eq_getElem?_getD, h, P.collab.keystream_length]

section Decode

variable {P : Params} {row : RateRow} {T : List Entry} {l : PacketLengths} {seed length : Nat} {channelBits : List Byte}

theorem decodePacket_of_uncorrectable
    (h : P.collab.fecDec row.scheme l.decMsgLen (perSymbol deinterleave T (row.ncbps / 8) l.nsym channelBits) =
      .uncorrectable) : decodePacket P row T l seed length channelBits = .uncorrectable := by
  simp only [decodePacket, h]

theorem decodePacket_of_ok {dec : List Byte}
    (h : P.collab.fecDec row.scheme l.decMsgLen (perSymbol deinterleave T (row.ncbps / 8) l.nsym channelBits) =
      .ok dec) :
    decodePacket P row T l seed length channelBits = .ok (extractPayload length (scramble P dec seed)) := by
  simp only [decodePacket, h]

end Decode

/-- Settles O41: what the FEC decoder is given is `Deinterleave` on each symbol of the channel bits. -/
theorem decodingRunsTheStepsInReverse : Obligations.DecodingRunsTheStepsInReverse := by
  intro P row T l seed length channelBits nb decoded
  refine ⟨perSymbol deinterleave T nb l.nsym channelBits, perSymbol_length _ _ _ _ _ deinterleave_length,
    fun m hm => chunk_perSymbol deinterleave_length hm, decodePacket_of_uncorrectable, fun dec hdec hlen => ?_⟩
  have hlen' : length + 2 ≤ (scramble P dec seed).length := by rwa [scramble_length]
  refine ⟨_, decodePacket_of_ok hdec, extractPayload_length hlen', fun i hi => ?_⟩
  rw [extractPayload_getD hi, scramble_getD P (by omega)]

/-! ## Decoding after encoding -/

/-- The message and the coded message are in the ratio of the row's scheme, which is the row's expansion (R113). -/
theorem scheme_fits {row : RateRow} {length : Nat} (hrow : row.wf = true) (hx : exactFor row length) :
    row.scheme.Fits (packetLengths row.ndbps row.ncbps length).decMsgLen
      (packetLengths row.ndbps row.ncbps length).encMsgLen := by
  obtain ⟨-, -, -, -, hpos, -, hdata, hle, hratio⟩ := RateRow.wf_bounds hrow
  have hcoded := encMsgLen_mul_ndbps hrow hx
  refine ⟨hdata, hle, Nat.eq_of_mul_eq_mul_right hpos ?_⟩
  generalize (packetLengths row.ndbps row.ncbps length).decMsgLen = n at hcoded ⊢
  generalize (packetLengths row.ndbps row.ncbps length).encMsgLen = m at hcoded ⊢
  calc n * row.scheme.coded * row.ndbps = n * (row.ndbps * row.scheme.coded) := by ring
    _ = n * row.ncbps * row.scheme.data := by rw [← hratio, Nat.mul_assoc]
    _ = m * row.scheme.data * row.ndbps := by rw [← hcoded]; ring

/-- Scrambling again recovers the payload: the mask touches only the tail byte, which lies behind it. -/
theorem extractPayload_scrambledMessage (P : Params) (n seed : Nat) (payload : List Byte) :
    extractPayload payload.length (scramble P (scrambledMessage P n seed payload) seed) = payload := by
  have htake (x : List Byte) := take_scramble_congr P (maskTail_length payload.length x) (maskTail_take _ x) seed
  rw [scrambledMessage, extractPayload_congr (htake _), scramble_scramble, extractPayload_assemble]

theorem decodePacket_encodePacket (P : Params) {row : RateRow} {length : Nat} {payload : List Byte}
    (hrow : row.wf = true) (hx : exactFor row length) (hlen : payload.length = length) (seed : Nat) :
    decodePacket P row (genTable row.ncbps row.nbpsc) (packetLengths row.ndbps row.ncbps length) seed length
      (encodePacket P row (genTable row.ncbps row.nbpsc) (packetLengths row.ndbps row.ncbps length) seed payload) =
        .ok payload := by
  subst hlen
  have hfits := scheme_fits hrow hx
  have henc := encMsgLen_of_exactFor hrow hx
  have hroom := length_add_two_lt_decMsgLen hrow hx
  generalize packetLengths row.ndbps row.ncbps payload.length = l at hfits henc hroom ⊢
  have hmsg := scrambledMessage_length P seed hroom.le
  have hcoded := P.collab.fecEnc_length _ _ _ _ hfits hmsg
  have hsymbols : perSymbol deinterleave (genTable row.ncbps row.nbpsc) (row.ncbps / 8) l.nsym
      (encodePacket P row (genTable row.ncbps row.nbpsc) l seed payload) =
        P.collab.fecEnc row.scheme l.decMsgLen (scrambledMessage P l.decMsgLen seed payload) :=
    perSymbol_perSymbol interleave_length
      (fun x hsym => (deinterleavingInvertsInterleaving row x hrow hsym).1) (hcoded.trans henc)
  rw [decodePacket_of_ok (hsymbols ▸ P.collab.fecDec_fecEnc _ _ _ _ hfits hmsg), extractPayload_scrambledMessage]

/-- Settles O46: the row of a well-formed table is well formed. -/
theorem decodingInvertsEncodingInEveryConfiguration : Obligations.DecodingInvertsEncodingInEveryConfiguration :=
  fun P _ seed _ _ hP hrow hx => decodePacket_encodePacket P (RateTable.row_wf hP hrow) hx rfl seed

end Sys2Proof.Machine
end

section
/-! PROOFS. `PENC` (O42) and `PDEC` (O43) at the machine, and that the second gives back what the first encoded
(O45). -/

namespace Sys2Proof.Machine

/-! ## The ensured slot -/

/-- `EnsureTable` changes the cache only (R78). -/
theorem State.ensureTable_eq_withCache (s : State) (rate : Nat) (row : RateRow) :
    s.ensureTable rate row = { s with cache := (s.ensureTable rate row).cache } := by
  unfold State.ensureTable
  split <;> rfl

/-- What `EnsureTable` leaves in the slots: a valid one is kept, another is generated, the rest stay (R78). -/
theorem slots_of_cache_eq_ensureTable {s t : State} {rate : Nat} {row : RateRow}
    (h : t.cache = (s.ensureTable rate row).cache) (hrate : rate < 8) :
    ((s.slot rate).valid = true → t.slot rate = s.slot rate) ∧
    ((s.slot rate).valid = false → (t.slot rate).valid = true ∧
      ∀ k, k < row.ncbps → (t.slot rate).entries[k]? = some (genEntry row.ncbps row.nbpsc k)) ∧
    ∀ r, r ≠ rate → t.slot r = s.slot r := by
  have hslot := State.slot_congr h
  refine ⟨fun hv => ?_, fun hv => ⟨?_, fun k hk => ?_⟩, fun r hr => ?_⟩
  · rw [hslot, State.ensureTable_of_valid hv]
  · rw [hslot, State.valid_ensureTable s row hrate]
  · have hfill : s.ensureTable rate row = s.fillSlot rate row := if_neg (by simp [hv])
    rw [hslot, hfill, State.entries_fillSlot_lt hrate hk]
  · rw [hslot, State.slot_ensureTable_other row hr.symm]

/-! ## The exit both share -/

section PacketExit

variable {rate : Nat} {row : RateRow} {sp : Space} {bytes : List Byte} {n : Nat} {s : State}

/-- The output's space holds the output after the exit, and every other byte stays (R102, R104). -/
theorem packetExit_byte (hcap : bytes.length ≤ sp.cap) (sp' : Space) (i : Nat) :
    (packetExit rate row sp bytes n s).byte sp' i =
      if sp = sp' ∧ i < bytes.length then bytes.getD i 0 else s.byte sp' i := by
  rw [State.byte_congr packetExit_mem (by simp [packetExit]), State.byte_setBytes s sp bytes sp' i hcap]

theorem packetExit_writes (rate : Nat) (row : RateRow) (sp : Space) (s : State) (hn : bytes.length = n)
    (hcap : n ≤ sp.cap) :
    (∀ i, i < n → (packetExit rate row sp bytes n s).byte sp i = bytes.getD i 0) ∧
    ∀ sp' i, ¬ (sp' = sp ∧ i < n) → (packetExit rate row sp bytes n s).byte sp' i = s.byte sp' i := by
  subst hn
  refine ⟨fun i hi => ?_, fun sp' i hi => ?_⟩
  · rw [packetExit_byte hcap, if_pos ⟨rfl, hi⟩]
  · rw [packetExit_byte hcap, if_neg fun hout => hi ⟨hout.1.symm, hout.2⟩]

/-- Beside the buffers and the cache, the exit writes the outcome registers and its length register. -/
theorem packetExit_sameButBuffers (rate : Nat) (row : RateRow) (sp : Space) (bytes : List Byte) (n : Nat) (s : State) :
    State.SameButBuffers ((s.withDone n).setLen sp (BitVec.ofNat 32 n))
      { packetExit rate row sp bytes n s with cache := s.cache } := by
  rw [packetExit, State.setBytes_eq_withMem, State.ensureTable_eq_withCache]
  cases sp <;> rfl

end PacketExit

/-! ## The faults before the exit -/

section Faults

variable {P : Params} {rate seed length : Nat} {row : RateRow} {s : State}

theorem penc_of_invalidRate (h : 8 ≤ rate) :
    penc P rate seed length s = { (s.withFault 1 rate) with cbLen := 0 } := withRate_none h _ _ _

theorem penc_of_inexact (hrow : rateRow P rate = some row) (hx : ¬ exactFor row length) :
    penc P rate seed length s =
      { (s.withFault 6 (packetLengths row.ndbps row.ncbps length).nsym) with cbLen := 0 } :=
  (withRate_some hrow _ _ _).trans (withLengths_inexact hx _ _ _)

theorem penc_of_lengthMismatch (hrow : rateRow P rate = some row) (hx : exactFor row length)
    (hl : s.pbLen.toNat ≠ length) : penc P rate seed length s = { (s.withFault 2 length) with cbLen := 0 } := by
  rw [penc, withRate_some hrow, withLengths_exact hx, requireLen_ne (sp := .pb) hl]
  rfl

theorem pdec_of_invalidRate (h : 8 ≤ rate) :
    pdec P rate seed length s = { (s.withFault 1 rate) with pbLen := 0 } := withRate_none h _ _ _

theorem pdec_of_inexact (hrow : rateRow P rate = some row) (hx : ¬ exactFor row length) :
    pdec P rate seed length s =
      { (s.withFault 6 (packetLengths row.ndbps row.ncbps length).nsym) with pbLen := 0 } :=
  (withRate_some hrow _ _ _).trans (withLengths_inexact hx _ _ _)

theorem pdec_of_lengthMismatch (hrow : rateRow P rate = some row) (hx : exactFor row length)
    (hl : s.cbLen.toNat ≠ (packetLengths row.ndbps row.ncbps length).encMsgLen) :
    pdec P rate seed length s =
      { (s.withFault 2 (packetLengths row.ndbps row.ncbps length).encMsgLen) with pbLen := 0 } := by
  rw [pdec, withRate_some hrow, withLengths_exact hx, requireLen_ne (sp := .cb) hl]
  rfl

end Faults

/-! ## `PENC` -/

theorem exec_penc (rate seed length : Nat) (s : State) :
    exec (.penc rate seed length) s = .next (penc block rate seed length s) := rfl

/-- The encoded packet has the encoded length of R93 (R101). -/
theorem encodePacket_length_of_exactFor (P : Params) {row : RateRow} {length : Nat} (hrow : row.wf = true)
    (hx : exactFor row length) (T : List Entry) (seed : Nat) (payload : List Byte) :
    (encodePacket P row T (packetLengths row.ndbps row.ncbps length) seed payload).length =
      (packetLengths row.ndbps row.ncbps length).encMsgLen := by
  rw [encodePacket_length, encMsgLen_of_exactFor hrow hx]

/-- Settles O42: the exit's slot is the one `PENC` encodes by. -/
theorem pencWritesTheEncodedPacket : Obligations.PencWritesTheEncodedPacket := by
  refine ⟨fun rate seed length s h _ => ?_, fun rate seed length row s hrow => ⟨fun hx => ?_, fun hx hl => ?_⟩,
    fun rate seed length row s hrow hseed hlength hx hl => ?_⟩
  · rw [exec_penc, penc_of_invalidRate h]
  · rw [exec_penc, penc_of_inexact hrow hx]
  · rw [exec_penc, penc_of_lengthMismatch hrow hx hl]
  · intro l
    have hrate := rateRow_lt hrow
    have hwf := RateTable.row_wf block_rates_wf hrow
    refine ⟨decode_encode_penc (hrate.trans (by decide)) (by omega) (by omega), _, exec_penc rate seed length s, ?_⟩
    have hdone := penc_completes (P := block) (seed := seed) hrow hx hl
    have hcache : (penc block rate seed length s).cache = (s.ensureTable rate row).cache :=
      hdone ▸ packetExit_cache
    obtain ⟨hkept, hgen, hother⟩ := slots_of_cache_eq_ensureTable hcache hrate
    rw [← State.table, State.table_congr hcache]
    have hlen := encodePacket_length_of_exactFor block hwf hx ((s.ensureTable rate row).table rate row.ncbps) seed
      (s.bytes .pb length)
    obtain ⟨hwritten, hframe⟩ := packetExit_writes rate row .cb s hlen (encMsgLen_le_cbCap hwf hlength)
    rw [← hdone] at hwritten hframe
    exact ⟨⟨hlen, hwritten⟩, hframe, hkept, hgen, hother, hdone ▸ packetExit_sameButBuffers rate row .cb _ _ s⟩

/-! ## `PDEC` -/

theorem exec_pdec (rate seed length : Nat) (s : State) :
    exec (.pdec rate seed length) s = .next (pdec block rate seed length s) := rfl

/-- A decoded payload has the length asked for: the decoder's answer is a whole message (R103, R114). -/
theorem length_of_decodePacket {P : Params} {row : RateRow} {length : Nat} (hrow : row.wf = true)
    (hx : exactFor row length) {T : List Entry} {seed : Nat} {channelBits payload : List Byte}
    (h : decodePacket P row T (packetLengths row.ndbps row.ncbps length) seed length channelBits = .ok payload) :
    payload.length = length := by
  have hfits := scheme_fits hrow hx
  have henc := encMsgLen_of_exactFor hrow hx
  have hroom := length_add_two_lt_decMsgLen hrow hx
  generalize packetLengths row.ndbps row.ncbps length = l at h hfits henc hroom
  have hdil : (perSymbol deinterleave T (row.ncbps / 8) l.nsym channelBits).length = l.encMsgLen := by
    rw [henc, perSymbol_length _ _ _ _ _ deinterleave_length]
  cases hdec : P.collab.fecDec row.scheme l.decMsgLen (perSymbol deinterleave T (row.ncbps / 8) l.nsym channelBits) with
  | ok dec =>
    have hlen := P.collab.fecDec_length _ _ _ _ _ hfits hdil hdec
    obtain rfl : extractPayload length (scramble P dec seed) = payload :=
      FecResult.ok.inj ((decodePacket_of_ok hdec).symm.trans h)
    exact extractPayload_length (by rw [scramble_length]; omega)
  | uncorrectable => cases (decodePacket_of_uncorrectable hdec).symm.trans h

/-- Whatever the decoder answers, the slot is ensured (R104, R127). -/
theorem pdec_cache {P : Params} {rate seed length : Nat} {row : RateRow} {s : State}
    (hrow : rateRow P rate = some row) (hx : exactFor row length)
    (hl : s.cbLen.toNat = (packetLengths row.ndbps row.ncbps length).encMsgLen) :
    (pdec P rate seed length s).cache = (s.ensureTable rate row).cache := by
  cases hans : decodePacket P row ((s.ensureTable rate row).table rate row.ncbps)
      (packetLengths row.ndbps row.ncbps length) seed length
      (s.bytes .cb (packetLengths row.ndbps row.ncbps length).encMsgLen) with
  | ok payload => rw [pdec_completes hrow hx hl hans, packetExit_cache]
  | uncorrectable => rw [pdec_uncorrectable hrow hx hl hans, raiseFault_cache]

/-- Settles O43, by the decoder's answer. -/
theorem pdecWritesThePayloadOrReportsUncorrectable : Obligations.PdecWritesThePayloadOrReportsUncorrectable := by
  refine ⟨fun rate seed length s h _ => ?_, fun rate seed length row s hrow => ⟨fun hx => ?_, fun hx hl => ?_⟩,
    fun rate seed length row s hrow hseed hlength hx => ?_⟩
  · rw [exec_pdec, pdec_of_invalidRate h]
  · rw [exec_pdec, pdec_of_inexact hrow hx]
  · rw [exec_pdec, pdec_of_lengthMismatch hrow hx hl]
  · intro l hl
    have hrate := rateRow_lt hrow
    have hwf := RateTable.row_wf block_rates_wf hrow
    refine ⟨decode_encode_pdec (hrate.trans (by decide)) (by omega) (by omega), _, exec_pdec rate seed length s, ?_⟩
    have hcache : (pdec block rate seed length s).cache = (s.ensureTable rate row).cache := pdec_cache hrow hx hl
    obtain ⟨hkept, hgen, hother⟩ := slots_of_cache_eq_ensureTable hcache hrate
    refine ⟨hkept, hgen, hother, ?_⟩
    rw [← State.table, State.table_congr hcache]
    cases hans : decodePacket block row ((s.ensureTable rate row).table rate row.ncbps) l seed length
        (s.bytes .cb l.encMsgLen) with
    | ok payload =>
      have hlen := length_of_decodePacket hwf hx hans
      rw [pdec_completes hrow hx hl hans]
      obtain ⟨hwritten, hframe⟩ := packetExit_writes rate row .pb s hlen (hlength.trans (by decide))
      exact ⟨hlen, hwritten, hframe, packetExit_sameButBuffers rate row .pb payload length s⟩
    | uncorrectable =>
      rw [pdec_uncorrectable hrow hx hl hans]
      exact ⟨State.byte_congr (by simp) (by simp), by rw [State.ensureTable_eq_withCache]; rfl⟩

/-! ## `PDEC` after `PENC` -/

theorem State.bytes_eq_of_byte {s : State} {sp : Space} {bytes : List Byte} {n : Nat} (hn : bytes.length = n)
    (h : ∀ i, i < n → s.byte sp i = bytes.getD i 0) : s.bytes sp n = bytes := by
  refine List.ext_getElem (by rw [State.bytes_length, hn]) fun i hi hi' => ?_
  rw [← List.getD_eq_getElem _ 0 hi, ← List.getD_eq_getElem _ 0 hi', State.bytes_getD (by omega), h i (by omega)]

theorem packetExit_status (rate : Nat) (row : RateRow) (sp : Space) (bytes : List Byte) (n : Nat) (s : State) :
    (packetExit rate row sp bytes n s).status = 1 := rfl

theorem packetExit_result_toNat (rate : Nat) (row : RateRow) (sp : Space) (bytes : List Byte) {n : Nat}
    (hn : n < 2 ^ 32) (s : State) : (packetExit rate row sp bytes n s).result.toNat = n := Nat.mod_eq_of_lt hn

theorem packetExit_len_toNat (rate : Nat) (row : RateRow) (sp : Space) (bytes : List Byte) {n : Nat}
    (hn : n < 2 ^ 32) (s : State) : ((packetExit rate row sp bytes n s).len sp).toNat = n := by
  cases sp <;> exact Nat.mod_eq_of_lt hn

/-- In a sound cache, `PENC` encodes by the generated table. -/
theorem penc_of_cacheSound {P : Params} {rate seed length : Nat} {row : RateRow} {s : State}
    (hrow : rateRow P rate = some row) (hx : exactFor row length) (hs : CacheSound P s) (hl : s.pbLen.toNat = length) :
    penc P rate seed length s =
      packetExit rate row .cb (encodePacket P row (genTable row.ncbps row.nbpsc)
        (packetLengths row.ndbps row.ncbps length) seed (s.bytes .pb length))
        (packetLengths row.ndbps row.ncbps length).encMsgLen s := by
  rw [penc_completes hrow hx hl, State.table_ensureTable hs hrow]

/-- In a sound cache, `PDEC` on the packet of a payload completes with the payload. -/
theorem pdec_of_encodePacket {P : Params} (hP : P.rates.wf = true) {rate seed length : Nat} {row : RateRow} {u : State}
    (hrow : rateRow P rate = some row) (hx : exactFor row length) (hu : CacheSound P u)
    (hl : u.cbLen.toNat = (packetLengths row.ndbps row.ncbps length).encMsgLen) {payload : List Byte}
    (hlen : payload.length = length)
    (hcb : u.bytes .cb (packetLengths row.ndbps row.ncbps length).encMsgLen =
      encodePacket P row (genTable row.ncbps row.nbpsc) (packetLengths row.ndbps row.ncbps length) seed payload) :
    pdec P rate seed length u = packetExit rate row .pb payload length u := by
  refine pdec_completes hrow hx hl ?_
  rw [State.table_ensureTable hu hrow, hcb, decodePacket_encodePacket P (RateTable.row_wf hP hrow) hx hlen]

/-- Settles O45: the cache being sound in both states, `PENC` and `PDEC` use the same generated table. -/
theorem pdecRecoversWhatPencEncoded : Obligations.PdecRecoversWhatPencEncoded := by
  intro rate seed length row s hrow hseed hlength hx hl hs
  have hwf := RateTable.row_wf block_rates_wf hrow
  have hcap := encMsgLen_le_cbCap hwf hlength
  have hout := encodePacket_length_of_exactFor block hwf hx (genTable row.ncbps row.nbpsc) seed (s.bytes .pb length)
  refine ⟨_, exec_penc rate seed length s, ?_⟩
  rw [penc_of_cacheSound hrow hx hs hl]
  refine ⟨packetExit_status _ _ _ _ _ _, fun u hu hulen hubytes => ?_⟩
  have hlen := packetExit_len_toNat rate row .cb (encodePacket block row (genTable row.ncbps row.nbpsc)
    (packetLengths row.ndbps row.ncbps length) seed (s.bytes .pb length)) (hcap.trans_lt (by decide)) s
  obtain ⟨htbytes, -⟩ := packetExit_writes rate row .cb s hout hcap
  have hcb : u.bytes .cb (packetLengths row.ndbps row.ncbps length).encMsgLen =
      encodePacket block row (genTable row.ncbps row.nbpsc) (packetLengths row.ndbps row.ncbps length) seed
        (s.bytes .pb length) :=
    State.bytes_eq_of_byte hout fun i hi =>
      (hubytes i (hi.trans_eq hlen.symm)).trans (htbytes i hi)
  refine ⟨_, exec_pdec rate seed length u, ?_⟩
  rw [pdec_of_encodePacket block_rates_wf hrow hx hu ((congrArg BitVec.toNat hulen).trans hlen)
    (State.bytes_length s .pb length) hcb]
  obtain ⟨hvbytes, -⟩ :=
    packetExit_writes rate row .pb u (State.bytes_length s .pb length) (hlength.trans (by decide))
  have hsmall : length < 2 ^ 32 := by omega
  refine ⟨packetExit_status _ _ _ _ _ _, packetExit_result_toNat _ _ _ _ hsmall _,
    packetExit_len_toNat _ _ .pb _ hsmall _, fun i hi => ?_⟩
  rw [hvbytes i hi, State.bytes_getD hi]

end Sys2Proof.Machine
end

section
/-! PROOFS. The fixtures of R118 by their formulas (O60): the encoder's output byte by byte, and the decoder as its
inverse. -/

namespace Sys2Proof.Machine

/-! ## The fixtures on `FEC_R1_2` -/

theorem fixtures_keystream (seed n : Nat) : fixtures.collab.keystream seed n = fixtureKeystream seed n := rfl

theorem fixtures_fecEnc (n : Nat) (x : List Byte) : fixtures.collab.fecEnc fecR1_2 n x = fixtureFecEnc x := by
  simp [fixtures, fixtureCollaborators]

theorem fixtures_fecDec (n : Nat) (y : List Byte) : fixtures.collab.fecDec fecR1_2 n y = fixtureFecDec y := by
  simp [fixtures, fixtureCollaborators]

/-! ## The keystream -/

theorem fixtureKeystream_length (seed n : Nat) : (fixtureKeystream seed n).length = n := by simp [fixtureKeystream]

theorem fixtureKeystream_getD_toNat (seed : Nat) {n i : Nat} (hi : i < n) :
    ((fixtureKeystream seed n).getD i 0).toNat = (seed + i) % 256 := by
  simp [fixtureKeystream, hi]

/-! ## The encoder -/

theorem fixtureFecEnc_getD : ∀ {x : List Byte} {i : Nat}, i < x.length →
    (fixtureFecEnc x).getD (2 * i) 0 = x.getD i 0 ∧ (fixtureFecEnc x).getD (2 * i + 1) 0 = x.getD i 0 ^^^ 0xFF
  | _ :: _, 0, _ => ⟨rfl, rfl⟩
  | _ :: xs, i + 1, h => fixtureFecEnc_getD (x := xs) (i := i) (Nat.lt_of_succ_lt_succ h)

/-- The encoder's bytes, two for each byte of the input, are all there is to its output. -/
theorem fixtureFecEnc_eq {x y : List Byte} (hlen : y.length = 2 * x.length)
    (heven : ∀ i, i < x.length → y.getD (2 * i) 0 = x.getD i 0)
    (hodd : ∀ i, i < x.length → y.getD (2 * i + 1) 0 = x.getD i 0 ^^^ 0xFF) : fixtureFecEnc x = y := by
  refine List.ext_getElem ((fixtureFecEnc_length x).trans hlen.symm) fun j hj hj' => ?_
  rw [← List.getD_eq_getElem _ 0 hj, ← List.getD_eq_getElem _ 0 hj']
  have hi : j / 2 < x.length := by omega
  obtain ⟨hencEven, hencOdd⟩ := fixtureFecEnc_getD hi
  obtain hj2 | hj2 : j = 2 * (j / 2) ∨ j = 2 * (j / 2) + 1 := by omega
  · rw [hj2, hencEven, heven _ hi]
  · rw [hj2, hencOdd, hodd _ hi]

/-! ## The decoder -/

theorem fixtureFecEnc_of_fixturePairs : ∀ {y z : List Byte}, fixturePairs y = some z → fixtureFecEnc z = y
  | [], _, h => by cases h; rfl
  | [_], _, h => by cases h
  | a :: b :: rest, z, h => by
    simp only [fixturePairs] at h
    split at h
    · obtain ⟨w, hw, rfl⟩ := Option.map_eq_some_iff.1 h
      simp [fixtureFecEnc, fixtureFecEnc_of_fixturePairs hw, *]
    · cases h

theorem fixtureFecDec_fixtureFecEnc (x : List Byte) : fixtureFecDec (fixtureFecEnc x) = .ok x := by
  rw [fixtureFecDec, fixturePairs_fixtureFecEnc]

/-- The decoder answers `Uncorrectable` on every input the encoder has no message for. -/
theorem fixtureFecDec_uncorrectable {y : List Byte} (h : ∀ x, fixtureFecEnc x ≠ y) :
    fixtureFecDec y = .uncorrectable := by
  cases hp : fixturePairs y with
  | none => rw [fixtureFecDec, hp]
  | some z => exact absurd (fixtureFecEnc_of_fixturePairs hp) (h z)

/-- The `n` bytes at even indexes: what R118 has the decoder answer. -/
def evenBytes (n : Nat) (y : List Byte) : List Byte := (List.range n).map fun i => y.getD (2 * i) 0

@[simp] theorem evenBytes_length (n : Nat) (y : List Byte) : (evenBytes n y).length = n := by simp [evenBytes]

theorem evenBytes_getD {n i : Nat} (hi : i < n) (y : List Byte) : (evenBytes n y).getD i 0 = y.getD (2 * i) 0 := by
  simp [evenBytes, hi]

theorem fixtureFecEnc_evenBytes {n : Nat} {y : List Byte} (hlen : y.length = 2 * n)
    (hodd : ∀ i, i < n → y.getD (2 * i + 1) 0 = y.getD (2 * i) 0 ^^^ 0xFF) : fixtureFecEnc (evenBytes n y) = y := by
  apply fixtureFecEnc_eq <;> rw [evenBytes_length]
  · exact hlen
  · exact fun i hi => (evenBytes_getD hi y).symm
  · exact fun i hi => by rw [evenBytes_getD hi, hodd i hi]

/-- Settles O60: an input whose odd bytes are complements is the encoding of its even bytes, and no other input of even
length is an encoding. -/
theorem fixturesFollowTheirFormulas : Obligations.FixturesFollowTheirFormulas := by
  refine ⟨fun seed n => ?_, fun n x hx => ?_, fun n y hy => ?_⟩
  · rw [fixtures_keystream]
    exact ⟨fixtureKeystream_length seed n, fun i hi => fixtureKeystream_getD_toNat seed hi⟩
  · subst hx
    rw [fixtures_fecEnc]
    exact ⟨fixtureFecEnc_length x, fun i hi => fixtureFecEnc_getD hi⟩
  · rw [fixtures_fecDec]
    refine ⟨fun hodd => ⟨evenBytes n y, ?_, evenBytes_length n y, fun i hi => evenBytes_getD hi y⟩, ?_⟩
    · rw [← fixtureFecDec_fixtureFecEnc, fixtureFecEnc_evenBytes hy hodd]
    · rintro ⟨i, hi, hne⟩
      refine fixtureFecDec_uncorrectable fun x hx => hne ?_
      subst hx
      rw [fixtureFecEnc_length] at hy
      obtain ⟨heven, hodd⟩ := fixtureFecEnc_getD (x := x) (i := i) (by omega)
      rw [hodd, heven]

end Sys2Proof.Machine
end

section
/-! PROOFS. What each command writes (O56): its output buffer, its length register and its slot, each command by the
writes it is made of. -/

namespace Sys2Proof.Machine

/-! ## Writes that stay inside a command's rule -/

/-- Beside the outcome registers, `t` differs from `s` at most in the bytes of the space `buf`, in the length register of
the space `len` and in the slot `slot` (R32). -/
structure WritesOnly (buf len : Option Space) (slot : Option Nat) (s t : State) : Prop where
  byte_eq     : ∀ sp j, buf ≠ some sp → t.byte sp j = s.byte sp j
  len_eq      : ∀ sp, len ≠ some sp → t.len sp = s.len sp
  slot_eq     : ∀ r, slot ≠ some r → t.slot r = s.slot r
  bus_eq      : t.bus = s.bus
  hostData_eq : t.hostData = s.hostData
  epoch_eq    : t.epoch = s.epoch
  draws_eq    : t.draws = s.draws

/-- The cache is its eight slots. -/
theorem State.cache_eq_of_slot_eq {s t : State} (h : ∀ r, t.slot r = s.slot r) : t.cache = s.cache :=
  Vector.ext fun r hr => by simpa [State.slot, hr] using h r

namespace WritesOnly

variable {buf len : Option Space} {slot : Option Nat} {rate : Nat} {sp : Space} {s t : State}

theorem refl (buf len : Option Space) (slot : Option Nat) (s : State) : WritesOnly buf len slot s s :=
  ⟨fun _ _ _ => rfl, fun _ _ => rfl, fun _ _ => rfl, rfl, rfl, rfl, rfl⟩

theorem cache_eq (h : WritesOnly buf len none s t) : t.cache = s.cache :=
  State.cache_eq_of_slot_eq fun r => h.slot_eq r nofun

theorem complete_setResult (h : WritesOnly buf len slot s t) (n : Nat) :
    WritesOnly buf len slot s (complete (t.setResult n)) :=
  ⟨h.byte_eq, h.len_eq, h.slot_eq, h.bus_eq, h.hostData_eq, h.epoch_eq, h.draws_eq⟩

/-- Fault entry writes the length register it clears (R127). -/
theorem raiseFault (h : WritesOnly buf len slot s t) (f : CommandFault) :
    WritesOnly buf len slot s (raiseFault f len t) where
  byte_eq sp j hb := (State.byte_congr (by simp) (by simp) sp j).trans (h.byte_eq sp j hb)
  len_eq sp hl := (raiseFault_len_other f hl t).trans (h.len_eq sp hl)
  slot_eq r hr := (raiseFault_slot f len t r).trans (h.slot_eq r hr)
  bus_eq := by simp [h.bus_eq]
  hostData_eq := by simp [h.hostData_eq]
  epoch_eq := by simp [h.epoch_eq]
  draws_eq := by simp [h.draws_eq]

theorem setBytes (h : WritesOnly (some sp) len slot s t) (bytes : List Byte) :
    WritesOnly (some sp) len slot s (t.setBytes sp bytes) where
  byte_eq sp' j hb :=
    (State.byte_setBytes_other t bytes j fun e => hb (congrArg some e)).trans (h.byte_eq sp' j hb)
  len_eq sp' hl := by rw [State.setBytes_eq_withMem]; exact h.len_eq sp' hl
  slot_eq r hr := by rw [State.setBytes_eq_withMem]; exact h.slot_eq r hr
  bus_eq := by simp [h.bus_eq]
  hostData_eq := by simp [h.hostData_eq]
  epoch_eq := by simp [h.epoch_eq]
  draws_eq := by simp [h.draws_eq]

theorem setLen (h : WritesOnly buf (some sp) slot s t) (v : Word) :
    WritesOnly buf (some sp) slot s (t.setLen sp v) where
  byte_eq sp' j hb := (State.byte_congr (by simp) (by simp) sp' j).trans (h.byte_eq sp' j hb)
  len_eq sp' hl := by rw [State.len_setLen, if_neg fun e => hl (congrArg some e), h.len_eq sp' hl]
  slot_eq r hr := (State.slot_congr (by simp) r).trans (h.slot_eq r hr)
  bus_eq := by simp [h.bus_eq]
  hostData_eq := by simp [h.hostData_eq]
  epoch_eq := by simp [h.epoch_eq]
  draws_eq := by simp [h.draws_eq]

theorem fillSlot (h : WritesOnly buf len (some rate) s t) (row : RateRow) :
    WritesOnly buf len (some rate) s (t.fillSlot rate row) :=
  ⟨h.byte_eq, h.len_eq,
    fun r hr => (State.slot_fillSlot_other row fun e => hr (congrArg some e)).trans (h.slot_eq r hr),
    h.bus_eq, h.hostData_eq, h.epoch_eq, h.draws_eq⟩

theorem ensureTable (h : WritesOnly buf len (some rate) s t) (row : RateRow) :
    WritesOnly buf len (some rate) s (t.ensureTable rate row) := by
  unfold State.ensureTable
  split
  · exact h
  · exact h.fillSlot row

end WritesOnly

/-! ## The commands -/

theorem gentbl_writesOnly (P : Params) (rate : Nat) (s : State) :
    WritesOnly none none (some rate) s (gentbl P rate s) := by
  have hs := WritesOnly.refl none none (some rate) s
  rcases gentbl_cases P rate s with ⟨-, h⟩ | ⟨row, -, h⟩ <;> rw [h]
  · exact hs.raiseFault _
  · exact (hs.fillSlot row).complete_setResult _

theorem symbolCommand_writesOnly (P : Params) (f : List Entry → List Byte → List Byte → List Byte) (rate : Nat)
    (s : State) : WritesOnly (some .sob) none none s (symbolCommand P f rate s) := by
  have hs := WritesOnly.refl (some .sob) none none s
  rcases symbolCommand_cases P f rate s with ⟨-, h⟩ | ⟨-, -, h⟩ | ⟨row, -, -, ⟨-, h⟩ | ⟨-, -, h⟩⟩ <;> rw [h]
  · exact hs.raiseFault _
  · exact hs.raiseFault _
  · exact hs.raiseFault _
  · exact (hs.setBytes _).complete_setResult _

theorem clen_writesOnly (P : Params) (rate length : Nat) (s : State) :
    WritesOnly none none none s (clen P rate length s) := by
  have hs := WritesOnly.refl none none none s
  rcases clen_cases P rate length s with ⟨-, h⟩ | ⟨row, -, ⟨-, h⟩ | ⟨-, h⟩⟩ <;> rw [h]
  · exact hs.raiseFault _
  · exact hs.raiseFault _
  · exact hs.complete_setResult _

theorem penc_writesOnly (P : Params) (rate seed length : Nat) (s : State) :
    WritesOnly (some .cb) (some .cb) (some rate) s (penc P rate seed length s) := by
  have hs := WritesOnly.refl (some .cb) (some .cb) (some rate) s
  rcases penc_cases P rate seed length s with ⟨-, h⟩ | ⟨row, -, ⟨-, h⟩ | ⟨-, -, h⟩ | ⟨-, -, h⟩⟩ <;> rw [h]
  · exact hs.raiseFault _
  · exact hs.raiseFault _
  · exact hs.raiseFault _
  · exact (((hs.ensureTable row).setBytes _).setLen _).complete_setResult _

theorem pdec_writesOnly (P : Params) (rate seed length : Nat) (s : State) :
    WritesOnly (some .pb) (some .pb) (some rate) s (pdec P rate seed length s) := by
  have hs := WritesOnly.refl (some .pb) (some .pb) (some rate) s
  rcases pdec_cases P rate seed length s with
    ⟨-, h⟩ | ⟨row, -, ⟨-, h⟩ | ⟨-, -, h⟩ | ⟨-, -, -, h⟩ | ⟨-, -, payload, -, h⟩⟩ <;> rw [h]
  · exact hs.raiseFault _
  · exact hs.raiseFault _
  · exact hs.raiseFault _
  · exact (hs.ensureTable row).raiseFault _
  · exact (((hs.ensureTable row).setBytes payload).setLen _).complete_setResult _

theorem brev_writesOnly (byte : Nat) (s : State) : WritesOnly none none none s (brev byte s) :=
  (WritesOnly.refl none none none s).complete_setResult _

/-! ## The write table -/

/-- The buffer a command may write (R32). -/
def outputBuffer : Instr → Option Space
  | .ilv _ | .dilv _ => some .sob
  | .penc _ _ _ => some .cb
  | .pdec _ _ _ => some .pb
  | .gentbl _ | .clen _ _ | .brev _ => none

/-- The space whose length register a command may write (R32, R127). -/
def outputLength : Instr → Option Space
  | .penc _ _ _ => some .cb
  | .pdec _ _ _ => some .pb
  | .gentbl _ | .ilv _ | .dilv _ | .clen _ _ | .brev _ => none

/-- The slot a command may write (R32). -/
def outputSlot : Instr → Option Nat
  | .gentbl rate | .penc rate _ _ | .pdec rate _ _ => some rate
  | .ilv _ | .dilv _ | .clen _ _ | .brev _ => none

theorem exec_writesOnly {i : Instr} {s t : State} (h : exec i s = .next t) :
    WritesOnly (outputBuffer i) (outputLength i) (outputSlot i) s t := by
  cases i with
  | gentbl rate => cases h; exact gentbl_writesOnly block rate s
  | ilv rate => cases h; exact symbolCommand_writesOnly block interleave rate s
  | dilv rate => cases h; exact symbolCommand_writesOnly block deinterleave rate s
  | clen rate length => cases h; exact clen_writesOnly block rate length s
  | penc rate seed length => cases h; exact penc_writesOnly block rate seed length s
  | pdec rate seed length => cases h; exact pdec_writesOnly block rate seed length s
  | brev byte => cases h; exact brev_writesOnly byte s

/-- Settles O56, column by column of the write table. -/
theorem commandsWriteOnlyWhatTheirRuleNames : Obligations.CommandsWriteOnlyWhatTheirRuleNames := by
  intro i s t h
  have hw := exec_writesOnly h
  refine ⟨fun j => hw.byte_eq .sib j ?sib, hw.len_eq .sib ?sibLen, hw.len_eq .sob ?sobLen, ?sob, ?cb, ?pb, ?cache,
    hw.bus_eq, hw.hostData_eq, hw.epoch_eq, hw.draws_eq⟩
  case sib => cases i <;> simp [outputBuffer]
  case sibLen => cases i <;> simp [outputLength]
  case sobLen => cases i <;> simp [outputLength]
  case sob =>
    cases i with
    | ilv | dilv => trivial
    | _ => exact fun j => hw.byte_eq .sob j (by simp [outputBuffer])
  case cb =>
    cases i with
    | penc => trivial
    | _ => exact ⟨hw.len_eq .cb (by simp [outputLength]), fun j => hw.byte_eq .cb j (by simp [outputBuffer])⟩
  case pb =>
    cases i with
    | pdec => trivial
    | _ => exact ⟨hw.len_eq .pb (by simp [outputLength]), fun j => hw.byte_eq .pb j (by simp [outputBuffer])⟩
  case cache =>
    cases i with
    | gentbl | penc | pdec => exact fun r hr => hw.slot_eq r fun e => hr (Option.some.inj e).symm
    | ilv | dilv | clen | brev => exact hw.cache_eq

end Sys2Proof.Machine
end

section
/-! PROOFS. How a command can end, and from it the exceptions of R120 to R127: unsupported rates (O48), wrong declared
lengths (O49), tables not generated (O32), the fault table (O52), and what fault entry leaves unchanged (O53). -/

namespace Sys2Proof.Machine

/-! ## How a command can end -/

/-- A check of the command fails in `s` with the fault `f` (R121, R122, R125, R126). It need not be the first that
fails. -/
def CheckFails (P : Params) (s : State) (f : CommandFault) : Instr → Prop
  | .gentbl rate => 8 ≤ rate ∧ f = .invalidRate rate
  | .ilv rate | .dilv rate =>
    (8 ≤ rate ∧ f = .invalidRate rate) ∨
    (rate < 8 ∧ (s.slot rate).valid = false ∧ f = .tableNotValid rate) ∨
    ∃ row, rateRow P rate = some row ∧ (s.sibLen.toNat ≠ row.ncbps / 8 ∨ s.sobLen.toNat ≠ row.ncbps / 8) ∧
      f = .bufferSizeMismatch (row.ncbps / 8)
  | .clen rate length =>
    (8 ≤ rate ∧ f = .invalidRate rate) ∨
    ∃ row, rateRow P rate = some row ∧ ¬ exactFor row length ∧
      f = .inexactLength (packetLengths row.ndbps row.ncbps length).nsym
  | .penc rate _ length =>
    (8 ≤ rate ∧ f = .invalidRate rate) ∨
    ∃ row, rateRow P rate = some row ∧
      ((¬ exactFor row length ∧ f = .inexactLength (packetLengths row.ndbps row.ncbps length).nsym) ∨
       (s.pbLen.toNat ≠ length ∧ f = .bufferSizeMismatch length))
  | .pdec rate _ length =>
    (8 ≤ rate ∧ f = .invalidRate rate) ∨
    ∃ row, rateRow P rate = some row ∧
      ((¬ exactFor row length ∧ f = .inexactLength (packetLengths row.ndbps row.ncbps length).nsym) ∨
       (s.cbLen.toNat ≠ (packetLengths row.ndbps row.ncbps length).encMsgLen ∧
        f = .bufferSizeMismatch (packetLengths row.ndbps row.ncbps length).encMsgLen))
  | .brev _ => False

/-- The states in which the command can end from `s`: completed, with a check failed and nothing else done, or, of `PDEC`
only, with an uncorrectable packet after its table was ensured (R119, R127). -/
inductive EndsIn (P : Params) (s : State) : Instr → State → Prop
  | completed {i} (u : State) : EndsIn P s i (complete u)
  | checkFailed {i f} (hf : CheckFails P s f i) : EndsIn P s i (raiseFault f (outputLength i) s)
  | uncorrectable {rate seed length row} (hrow : rateRow P rate = some row) :
    EndsIn P s (.pdec rate seed length) (raiseFault .fecUncorrectable (some .pb) (s.ensureTable rate row))

theorem gentbl_endsIn (P : Params) (rate : Nat) (s : State) : EndsIn P s (.gentbl rate) (gentbl P rate s) := by
  rcases gentbl_cases P rate s with ⟨hr, h⟩ | ⟨row, -, h⟩ <;> rw [h]
  · exact .checkFailed ⟨hr, rfl⟩
  · exact .completed _

/-- The transform decides what `ILV` and `DILV` write, not how they end. -/
theorem symbolCommand_endsIn (P : Params) (f : List Entry → List Byte → List Byte → List Byte) (rate : Nat) (s : State) :
    EndsIn P s (.ilv rate) (symbolCommand P f rate s) ∧ EndsIn P s (.dilv rate) (symbolCommand P f rate s) := by
  rcases symbolCommand_cases P f rate s with ⟨hr, h⟩ | ⟨hr, hv, h⟩ | ⟨row, hrow, -, ⟨hl, h⟩ | ⟨-, -, h⟩⟩ <;> rw [h]
  · exact ⟨.checkFailed (.inl ⟨hr, rfl⟩), .checkFailed (.inl ⟨hr, rfl⟩)⟩
  · exact ⟨.checkFailed (.inr (.inl ⟨hr, hv, rfl⟩)), .checkFailed (.inr (.inl ⟨hr, hv, rfl⟩))⟩
  · exact ⟨.checkFailed (.inr (.inr ⟨row, hrow, hl, rfl⟩)), .checkFailed (.inr (.inr ⟨row, hrow, hl, rfl⟩))⟩
  · exact ⟨.completed _, .completed _⟩

theorem clen_endsIn (P : Params) (rate length : Nat) (s : State) :
    EndsIn P s (.clen rate length) (clen P rate length s) := by
  rcases clen_cases P rate length s with ⟨hr, h⟩ | ⟨row, hrow, ⟨hx, h⟩ | ⟨-, h⟩⟩ <;> rw [h]
  · exact .checkFailed (.inl ⟨hr, rfl⟩)
  · exact .checkFailed (.inr ⟨row, hrow, hx, rfl⟩)
  · exact .completed _

theorem penc_endsIn (P : Params) (rate seed length : Nat) (s : State) :
    EndsIn P s (.penc rate seed length) (penc P rate seed length s) := by
  rcases penc_cases P rate seed length s with ⟨hr, h⟩ | ⟨row, hrow, ⟨hx, h⟩ | ⟨-, hl, h⟩ | ⟨-, -, h⟩⟩ <;> rw [h]
  · exact .checkFailed (.inl ⟨hr, rfl⟩)
  · exact .checkFailed (.inr ⟨row, hrow, .inl ⟨hx, rfl⟩⟩)
  · exact .checkFailed (.inr ⟨row, hrow, .inr ⟨hl, rfl⟩⟩)
  · exact .completed _

theorem pdec_endsIn (P : Params) (rate seed length : Nat) (s : State) :
    EndsIn P s (.pdec rate seed length) (pdec P rate seed length s) := by
  rcases pdec_cases P rate seed length s with
    ⟨hr, h⟩ | ⟨row, hrow, ⟨hx, h⟩ | ⟨-, hl, h⟩ | ⟨-, -, -, h⟩ | ⟨-, -, payload, -, h⟩⟩ <;> rw [h]
  · exact .checkFailed (.inl ⟨hr, rfl⟩)
  · exact .checkFailed (.inr ⟨row, hrow, .inl ⟨hx, rfl⟩⟩)
  · exact .checkFailed (.inr ⟨row, hrow, .inr ⟨hl, rfl⟩⟩)
  · exact .uncorrectable hrow
  · exact .completed _

theorem exec_endsIn {i : Instr} {s t : State} (h : exec i s = .next t) : EndsIn block s i t := by
  cases i with
  | gentbl rate => cases h; exact gentbl_endsIn block rate s
  | ilv rate => cases h; exact (symbolCommand_endsIn block interleave rate s).1
  | dilv rate => cases h; exact (symbolCommand_endsIn block deinterleave rate s).2
  | clen rate length => cases h; exact clen_endsIn block rate length s
  | penc rate seed length => cases h; exact penc_endsIn block rate seed length s
  | pdec rate seed length => cases h; exact pdec_endsIn block rate seed length s
  | brev byte => cases h; exact .completed _

/-! ## The fault codes -/

theorem CommandFault.code_eq_three_iff (f : CommandFault) : f.code = 3 ↔ f = .fecUncorrectable := by
  cases f <;> simp [CommandFault.code]

theorem CommandFault.code_eq_five_iff (f : CommandFault) : f.code = 5 ↔ ∃ rate, f = .tableNotValid rate := by
  cases f <;> simp [CommandFault.code]

/-- `FecUncorrectable` is the decoder's answer, not a check's. -/
theorem CheckFails.code_ne_three {P : Params} {s : State} {f : CommandFault} {i : Instr} (h : CheckFails P s f i) :
    f.code ≠ 3 := by
  rw [Ne, CommandFault.code_eq_three_iff]
  rintro rfl
  cases i <;> simp [CheckFails] at h

/-- Only the symbol commands check the table operand (R125). -/
theorem CheckFails.of_tableNotValid {P : Params} {s : State} {rate : Nat} {i : Instr}
    (h : CheckFails P s (.tableNotValid rate) i) :
    rate < 8 ∧ (s.slot rate).valid = false ∧ (i = .ilv rate ∨ i = .dilv rate) := by
  cases i with
  | ilv rate' | dilv rate' =>
    obtain ⟨hrate, hv, rfl⟩ : rate' < 8 ∧ (s.slot rate').valid = false ∧ rate = rate' := by
      simpa [CheckFails] using h
    simp [hrate, hv]
  | _ => simp [CheckFails] at h

/-! ## The faults one by one -/

theorem exec_gentbl (rate : Nat) (s : State) : exec (.gentbl rate) s = .next (gentbl block rate s) := rfl

theorem gentbl_of_invalidRate {P : Params} {rate : Nat} (h : 8 ≤ rate) (s : State) :
    gentbl P rate s = s.withFault 1 rate := withRate_none h _ _ _

/-- Settles O48: the rate is every command's first check. -/
theorem unsupportedRatesFaultBeforeAnythingElse : Obligations.UnsupportedRatesFaultBeforeAnythingElse := by
  intro rate seed length s h _
  rw [exec_gentbl, exec_ilv, exec_dilv, exec_clen, exec_penc, exec_pdec, gentbl_of_invalidRate h,
    symbolCommand_of_invalidRate h, symbolCommand_of_invalidRate h, clen_of_invalidRate h, penc_of_invalidRate h,
    pdec_of_invalidRate h]
  exact ⟨rfl, rfl, rfl, rfl, rfl, rfl⟩

/-- Settles O49: the lengths are checked after the rate and the table or the exactness of the lengths. -/
theorem wrongDeclaredLengthsFault : Obligations.WrongDeclaredLengthsFault := by
  refine fun rate seed length row s hrow => ⟨fun hv hl => ⟨?_, ?_⟩, fun hx hl => ?_, fun hx hl => ?_⟩
  · rw [exec_ilv, symbolCommand_of_lengthMismatch hrow hv hl]
  · rw [exec_dilv, symbolCommand_of_lengthMismatch hrow hv hl]
  · rw [exec_penc, penc_of_lengthMismatch hrow hx hl]
  · rw [exec_pdec, pdec_of_lengthMismatch hrow hx hl]

/-- Settles O32: code 5 is a failed check of the table operand. -/
theorem symbolCommandsFaultWithoutATable : Obligations.SymbolCommandsFaultWithoutATable := by
  refine ⟨fun rate s hrate hv => ⟨?_, ?_⟩, fun i s t h hcode => ?_⟩
  · rw [exec_ilv, symbolCommand_of_invalidTable (by omega) hv]
  · rw [exec_dilv, symbolCommand_of_invalidTable (by omega) hv]
  · cases exec_endsIn h with
    | completed u => simp at hcode
    | @checkFailed _ f hf =>
      obtain ⟨rate, rfl⟩ := f.code_eq_five_iff.mp (by simpa using hcode)
      obtain ⟨hrate, hv, hi⟩ := hf.of_tableNotValid
      exact ⟨rate, by omega, hv, hi⟩
    | uncorrectable hrow => simp [CommandFault.code] at hcode

/-! ## The fault table and fault entry -/

/-- A word that decodes to no command records code 4 with the word, by O5 (R124). -/
theorem step_write_cmd_of_not_decode {w : Word} (h : ∀ i, decode w ≠ .ok i) (s : State) (rest : List HostEvent) :
    step { s with bus := .write (.reg .cmd) w :: rest } = .next (State.withFault { s with bus := rest } 4 w.toNat) :=
  (reservedWordsRaiseIllegalCommand w).1 ((reservedWord_iff_not_decode w).mpr (not_exists.mpr h)) s rest

/-- Settles O52: a command that did not complete failed one of its own checks, or is a `PDEC` of an uncorrectable
packet. -/
theorem faultsComeOnlyFromTheCommandsOfTheTable : Obligations.FaultsComeOnlyFromTheCommandsOfTheTable := by
  refine ⟨fun w s rest h => ⟨_, step_write_cmd_of_not_decode h s rest, rfl, by simp [State.withFault]⟩,
    fun i s t h => ?_⟩
  cases exec_endsIn h with
  | completed u =>
    cases i with
    | brev => exact ⟨rfl, rfl⟩
    | _ => exact .inl ⟨rfl, rfl⟩
  | uncorrectable hrow => exact .inr (.inr (.inl ⟨rfl, rfl⟩))
  | checkFailed hf =>
    cases i with
    | brev => exact hf.elim
    | gentbl rate =>
      obtain ⟨hr, rfl⟩ := hf
      exact .inr ⟨rfl, hr, rfl⟩
    | ilv rate | dilv rate =>
      obtain ⟨hr, rfl⟩ | ⟨-, hv, rfl⟩ | ⟨row, hrow, hl, rfl⟩ := hf
      · exact .inr (.inl ⟨rfl, hr, rfl⟩)
      · exact .inr (.inr (.inl ⟨rfl, hv, rfl⟩))
      · exact .inr (.inr (.inr ⟨row, hrow, hl.imp (⟨rfl, ·, rfl⟩) (⟨rfl, ·, rfl⟩)⟩))
    | clen rate length =>
      obtain ⟨hr, rfl⟩ | ⟨row, hrow, hx, rfl⟩ := hf
      · exact .inr (.inl ⟨rfl, hr, rfl⟩)
      · exact .inr (.inr ⟨row, hrow, rfl, hx, rfl⟩)
    | penc rate seed length =>
      obtain ⟨hr, rfl⟩ | ⟨row, hrow, ⟨hx, rfl⟩ | ⟨hl, rfl⟩⟩ := hf
      · exact .inr (.inl ⟨rfl, hr, rfl⟩)
      · exact .inr (.inr ⟨row, hrow, .inl ⟨rfl, hx, rfl⟩⟩)
      · exact .inr (.inr ⟨row, hrow, .inr ⟨rfl, hl, rfl⟩⟩)
    | pdec rate seed length =>
      obtain ⟨hr, rfl⟩ | ⟨row, hrow, ⟨hx, rfl⟩ | ⟨hl, rfl⟩⟩ := hf
      · exact .inr (.inl ⟨rfl, hr, rfl⟩)
      · exact .inr (.inr (.inr ⟨row, hrow, .inl ⟨rfl, hx, rfl⟩⟩))
      · exact .inr (.inr (.inr ⟨row, hrow, .inr ⟨rfl, hl, rfl⟩⟩))

/-- Settles O53: a failed check enters the fault from the state before the command, and an uncorrectable packet from the
state with its table ensured. What no command writes is O56. -/
theorem faultingCommandsChangeNothingElse : Obligations.FaultingCommandsChangeNothingElse := by
  refine ⟨fun w s rest h => step_write_cmd_of_not_decode h s rest, fun i s t h hstatus => ?_⟩
  obtain ⟨-, hsib, hsob, -, -, -, -, hhost⟩ := commandsWriteOnlyWhatTheirRuleNames i s t h
  cases exec_endsIn h with
  | completed u => simp at hstatus
  | @checkFailed _ f hf =>
    refine ⟨⟨f, by simp⟩, by simp, ?cbLen, ?pbLen, hsib, hsob, by simp, fun _ => by simp, fun h3 => ?code, hhost⟩
    case cbLen => cases i <;> rfl
    case pbLen => cases i <;> rfl
    case code => exact absurd (by simpa using h3) hf.code_ne_three
  | @uncorrectable rate seed length row hrow =>
    have hcache := raiseFault_cache .fecUncorrectable (some .pb) (s.ensureTable rate row)
    obtain ⟨hkept, -, hother⟩ := slots_of_cache_eq_ensureTable hcache (rateRow_lt hrow)
    refine ⟨⟨.fecUncorrectable, by simp⟩, by simp, ?cbLen, rfl, hsib, hsob, by simp, fun h3 => absurd rfl h3,
      fun _ => ⟨rate, seed, length, rfl, ?valid, hkept, hother⟩, hhost⟩
    case cbLen => exact (raiseFault_len_other _ (sp := .cb) (by decide) _).trans (s.ensureTable_cbLen rate row)
    case valid => rw [raiseFault_slot, State.valid_ensureTable s row (rateRow_lt hrow)]

end Sys2Proof.Machine
end

section
/-! PROOFS. The command words: encoding and decoding undo each other (O2, O3), and the words of vector V12 (O1). -/

namespace Sys2Proof

/-! ## A word as its fields -/

theorem field_lt (w : Word) (hi lo : Nat) : field w hi lo < 2 ^ (hi - lo + 1) := Nat.mod_lt _ (Nat.two_pow_pos _)

/-- The fields of R51 tile a word, and those of R52 and R53 its low 24 bits. -/
theorem toNat_eq_sum_of_packetFields (w : Word) :
    w.toNat = field w 31 28 * 2 ^ 28 + field w 27 24 * 2 ^ 24 + field w 23 0 ∧
    field w 23 0 = field w 23 12 * 2 ^ 12 + field w 11 0 ∧
    field w 23 12 = field w 23 17 * 2 ^ 5 + field w 16 12 := by
  have := w.isLt
  simp only [field]
  omega

/-- The fields of R54 tile a word. -/
theorem toNat_eq_sum_of_byteFields (w : Word) :
    w.toNat = field w 31 28 * 2 ^ 28 + field w 27 8 * 2 ^ 8 + field w 7 0 := by
  have := w.isLt
  simp only [field]
  omega

/-! ## Encoding and decoding -/

/-- Settles O2, command by command: the operands are below the bounds of their fields. -/
theorem decodeOfEncodeIsTheCommand : Obligations.DecodeOfEncodeIsTheCommand := by
  intro i h
  cases i with
  | gentbl rate => exact Machine.decode_encode_gentbl (of_decide_eq_true h)
  | ilv rate => exact Machine.decode_encode_ilv (of_decide_eq_true h)
  | dilv rate => exact Machine.decode_encode_dilv (of_decide_eq_true h)
  | clen rate length =>
    obtain ⟨hrate, hlength⟩ : rate < 16 ∧ length < 4096 := by simpa [Instr.wf, rateFits, lengthFits] using h
    exact Machine.decode_encode_clen hrate hlength
  | penc rate seed length =>
    obtain ⟨⟨hrate, hseed⟩, hlength⟩ : (rate < 16 ∧ seed < 128) ∧ length < 4096 := by
      simpa [Instr.wf, rateFits, seedFits, lengthFits] using h
    exact Machine.decode_encode_penc hrate hseed hlength
  | pdec rate seed length =>
    obtain ⟨⟨hrate, hseed⟩, hlength⟩ : (rate < 16 ∧ seed < 128) ∧ length < 4096 := by
      simpa [Instr.wf, rateFits, seedFits, lengthFits] using h
    exact Machine.decode_encode_pdec hrate hseed hlength
  | brev byte => exact Machine.decode_encode_brev (of_decide_eq_true h)

theorem wf_of_decode {w : Word} {i : Instr} (h : decode w = .ok i) : i.wf = true := by
  have hrate : field w 27 24 < 16 := field_lt w 27 24
  have hseed : field w 23 17 < 128 := field_lt w 23 17
  have hlength : field w 11 0 < 4096 := field_lt w 11 0
  have hbyte : field w 7 0 < 256 := field_lt w 7 0
  obtain ⟨-, -, rfl⟩ | ⟨-, -, rfl⟩ | ⟨-, -, rfl⟩ | ⟨-, -, rfl⟩ | ⟨-, -, rfl⟩ | ⟨-, -, rfl⟩ | ⟨-, -, rfl⟩ :=
    decode_cases h <;>
    simp [Instr.wf, rateFits, seedFits, lengthFits, byteFits, hrate, hseed, hlength, hbyte]

/-- The opcode and the operands' fields are all of the word, the reserved field being zero. -/
theorem encode_of_decode {w : Word} {i : Instr} (h : decode w = .ok i) : encode i = w := by
  obtain ⟨hw, hlow, hmid⟩ := toNat_eq_sum_of_packetFields w
  have hb := toNat_eq_sum_of_byteFields w
  refine BitVec.eq_of_toNat_eq ?_
  obtain ⟨ho, hz, rfl⟩ | ⟨ho, hz, rfl⟩ | ⟨ho, hz, rfl⟩ | ⟨ho, hz, rfl⟩ | ⟨ho, hz, rfl⟩ | ⟨ho, hz, rfl⟩ | ⟨ho, hz, rfl⟩ :=
    decode_cases h <;>
    (simp only [encode, BitVec.toNat_ofNat]; omega)

/-- Settles O3: the operands are fields of the word, so they fit, and with the opcode they are all of it. -/
theorem decodedWordsEncodeBackToThemselves : Obligations.DecodedWordsEncodeBackToThemselves :=
  fun _ _ h => ⟨wf_of_decode h, encode_of_decode h⟩

/-- Settles O1: the nine words are decoded, and the eleven are reserved words, which do not decode. -/
theorem commandWordsDecodeAsTheSpecListsThem : Obligations.CommandWordsDecodeAsTheSpecListsThem := by
  refine ⟨by decide, by decide, by decide, by decide, by decide, by decide, by decide, by decide, by decide,
    fun w hw => not_exists.mp ((Machine.reservedWord_iff_not_decode w).mp ?_)⟩
  revert w
  simp [Machine.reservedWord, field]

end Sys2Proof
end

section
/-! PROOFS. The state after reset (O13, O57), the reset event (O14), and the rows of the default rate table (O16). -/

namespace Sys2Proof.Machine

/-- Settles O57: the base case of O59. -/
theorem resetStateMeetsTheInvariant : Obligations.ResetStateMeetsTheInvariant := State.reset_inv

/-- Settles O13: a register's reset value is the field's, and no slot of a fresh cache is valid. -/
theorem resetStateHasTheResetValues : Obligations.ResetStateHasTheResetValues :=
  ⟨rfl, rfl, rfl, rfl, rfl, rfl, rfl, rfl, State.slot_reset_valid, by simp [State.tvalidWord, State.slot_reset_valid]⟩

/-- A byte nothing has written since reset is the power-on byte of its offset (R30, U5). -/
theorem State.byte_of_mem_empty {s : State} (h : s.mem = ⟨[]⟩) (sp : Space) (i : Nat) :
    s.byte sp i = Config.powerOnByte s.epoch (sp.base + i) := by
  simp [State.byte, h, Memory.find, findCell]

/-- Settles O14: the step's state is `resetBlock`, whose cache and buffer memory are those of `State.reset`. -/
theorem resetEventRestoresTheResetState : Obligations.ResetEventRestoresTheResetState := by
  intro s rest
  refine ⟨resetBlock { s with bus := rest }, rfl, rfl, rfl, rfl, rfl, rfl, rfl, rfl, rfl, State.slot_reset_valid,
    State.byte_of_mem_empty rfl, rfl, rfl⟩

/-- Settles O16: the eight rows are those of `defaultRates`, and the table has no ninth. -/
theorem rateLookupReturnsTheDefaultRows : Obligations.RateLookupReturnsTheDefaultRows :=
  ⟨rfl, fun _ h => rateRow_none h, block_rates_wf⟩

end Sys2Proof.Machine
end

section
/-! PROOFS. Host accesses: the command they start (O6), what a read returns (O8, O12), what a write changes (O7), and
which accesses are refused (O10). -/

namespace Sys2Proof.Machine

/-! ## The command port -/

theorem runCommand_of_decode {w : Word} {i : Instr} (h : decode w = .ok i) (s : State) : runCommand w s = exec i s := by
  simp only [runCommand, h]

/-- Settles O6: all three accesses are a write to `CMD`, which runs the decoded command. -/
theorem stepRunsTheDecodedCommand : Obligations.StepRunsTheDecodedCommand := by
  intro s rest w i h
  have hport : step { s with bus := .write (.reg .cmd) w :: rest } = exec i { s with bus := rest } := by
    rw [step_write_cmd, runCommand_of_decode h]
  have hflat : resolve 0 4 = .ok (.reg .cmd) := rfl
  refine ⟨hport, ?_, ?_⟩
  · exact (bindsPort_of_resolve hflat s rest w).2.trans hport
  · have hword : BitVec.ofNat 32 (w.toNat % 2 ^ 32) = w := by
      rw [Nat.mod_eq_of_lt w.isLt, BitVec.ofNat_toNat, BitVec.setWidth_eq]
    rw [State.withFetchWord, hword, step_write_cmd, runCommand_of_decode h]

/-! ## Accesses through a port -/

section Ports

variable {P : Params} {p : Port} {sp : Space} {i r k : Nat}

theorem readPort_of_refusal {why : Refusal} (h : p.refusal = some why) (s : State) : readPort P p s = .refused why := by
  simp only [readPort, h]

theorem writePort_of_refusal {why : Refusal} (h : p.refusal = some why) (v : Word) (s : State) :
    writePort p v s = .refused why := by
  simp only [writePort, h]

theorem readPort_answers (h : p.refusal = none) (s : State) : ∃ t, readPort P p s = .next t := by
  cases p <;> exact ⟨_, by simp only [readPort, h]; rfl⟩

theorem readPort_buf (h : i < sp.cap) (s : State) :
    readPort P (.buf sp i) s = .next { s with hostData := (s.byte sp i).setWidth 32 } := by
  simp only [readPort, Port.refusal_buf h]

theorem readPort_tbl (h : r < 8 ∧ k < 512) (s : State) : readPort P (.tbl r k) s = .next (readTable P r k s) := by
  simp only [readPort, Port.refusal_tbl h]

theorem writePort_buf (h : i < sp.cap) (v : Word) (s : State) :
    writePort (.buf sp i) v s = .next (s.setByte sp i (v.setWidth 8)) := by
  simp only [writePort, Port.refusal_buf h]

theorem writePort_tbl_of_lt (h : r < 8 ∧ k < 512) (v : Word) (s : State) :
    writePort (.tbl r k) v s = .refused (.tableWindowWrite r k) := by
  simp only [writePort, Port.refusal_tbl h]

theorem Port.refusal_buf_of_le (h : sp.cap ≤ i) : (Port.buf sp i).refusal = some (.beyondCapacity i) :=
  if_neg (Nat.not_lt.mpr h)

theorem Port.refusal_tbl_of_le (h : 8 ≤ r ∨ 512 ≤ k) : (Port.tbl r k).refusal = some (.beyondCapacity k) :=
  if_neg (show ¬ (r < 8 ∧ k < 512) by omega)

end Ports

/-- Every command has a next state (R119). -/
theorem exec_answers (i : Instr) (s : State) : ∃ t, exec i s = .next t := by
  cases i <;> exact ⟨_, rfl⟩

/-- A write to `CMD` always runs something: a command, or the fault of an illegal word (R57). -/
theorem runCommand_answers (w : Word) (s : State) : ∃ t, runCommand w s = .next t := by
  unfold runCommand
  split
  · exact exec_answers _ s
  · exact ⟨_, rfl⟩

theorem writeReg_answers (r : Reg) (v : Word) (s : State) : ∃ t, writeReg r v s = .next t := by
  cases r with
  | cmd => exact runCommand_answers v s
  | _ => exact ⟨_, rfl⟩

theorem State.setByte_sameButBuffers (s : State) (sp : Space) (i : Nat) (v : Byte) :
    State.SameButBuffers s (s.setByte sp i v) := by
  unfold State.setByte
  split <;> rfl

/-- Settles O7: a length register or a byte is stored, a read-only register ignores the write, the window refuses it. -/
theorem hostAccessesChangeOnlyWhatTheyName : Obligations.HostAccessesChangeOnlyWhatTheyName := by
  refine ⟨fun s rest v => ⟨rfl, rfl, rfl, rfl⟩, fun s rest sp i v hi => ⟨_, writePort_buf hi v _, ?_, ?_, ?_⟩,
    fun s rest v => ⟨?_, fun r k hr hk => writePort_tbl_of_lt ⟨hr, hk⟩ v _⟩, fun s rest p t h => readPort_next h,
    fun s h => by simp only [step, h]⟩
  · exact State.byte_setByte_same _ hi
  · intro sp' i' hne
    exact State.byte_setByte_other _ fun h => hne ⟨h.1.symm, h.2.symm⟩
  · exact State.setByte_sameButBuffers _ sp i _
  · simp only [List.forall_mem_cons, List.not_mem_nil, false_imp_iff, implies_true, and_true]
    exact ⟨rfl, rfl, rfl, rfl, rfl⟩

/-- Settles O8: each register by its case of `readReg`, a buffer byte by its port. -/
theorem registerReadsReturnTheRegisters : Obligations.RegisterReadsReturnTheRegisters :=
  fun _ _ => ⟨rfl, rfl, rfl, rfl, rfl, rfl, rfl, rfl, rfl, rfl, fun _ _ hi => readPort_buf hi _⟩

/-! ## The table window -/

/-- The word of an entry, read as a number (R25). -/
theorem Entry.word_toNat (e : Entry) :
    e.word.toNat = e.srcByte.toNat * 2 ^ 24 + e.dstByte.toNat * 2 ^ 16 + e.srcMask.toNat * 2 ^ 8 + e.dstMask.toNat := by
  have happend {m : Nat} (x : BitVec m) (y : Byte) : (x ++ y).toNat = x.toNat * 2 ^ 8 + y.toNat := by
    rw [BitVec.toNat_append, ← Nat.shiftLeft_add_eq_or_of_lt y.isLt, Nat.shiftLeft_eq]
  rw [Entry.word, happend, happend, happend]
  ring

section DefinedEntry

variable {P : Params} {s : State} {r k : Nat} {row : RateRow}

theorem definedEntry_of_valid (hrow : rateRow P r = some row) (hv : (s.slot r).valid = true) (hk : k < row.ncbps) :
    s.definedEntry P r k = (s.slot r).entries[k]? := by
  simp only [State.definedEntry, hrow, hv, if_true, State.table, List.getElem?_take_of_lt hk]

theorem definedEntry_eq_none (hrow : rateRow P r = some row) (h : (s.slot r).valid = false ∨ row.ncbps ≤ k) :
    s.definedEntry P r k = none := by
  simp only [State.definedEntry, hrow, State.table]
  obtain hv | hk := h
  · simp [hv]
  · simp [List.getElem?_take_eq_none hk]

end DefinedEntry

/-- Settles O12: the slot is one of the eight, so the port answers with the defined entry, or else with a fresh draw. -/
theorem tableWindowShowsThePackedEntry : Obligations.TableWindowShowsThePackedEntry := by
  intro s rest r k row v hrow hk
  have hport : r < 8 ∧ k < 512 := ⟨rateRow_lt hrow, hk⟩
  refine ⟨fun e hv hlt he => ⟨_, readPort_tbl hport _, ?_⟩, fun h => ?_, writePort_tbl_of_lt hport v _⟩
  · have hdef : { s with bus := rest }.definedEntry block r k = some e := (definedEntry_of_valid hrow hv hlt).trans he
    simp only [readTable, hdef, Entry.word_toNat]
  · have hdef : { s with bus := rest }.definedEntry block r k = none := definedEntry_eq_none hrow h
    refine (readPort_tbl hport _).trans ?_
    simp only [readTable, hdef]

/-! ## The flat addresses -/

/-- The regions of R45, and the gaps between them. -/
theorem regionOf_cases (off : Nat) :
    (off < 0x28 ∧ regionOf off = some .registers) ∨
    (∃ sp : Space, sp.base ≤ off ∧ off < sp.base + sp.cap ∧ regionOf off = some (.buffer sp)) ∨
    (0x8000 ≤ off ∧ off < 0xC000 ∧ regionOf off = some .tableWindow) ∨ regionOf off = none := by
  by_cases hreg : off < 0x28
  · exact .inl ⟨hreg, regionOf_registers hreg⟩
  · by_cases hbuf : ∃ sp : Space, sp.base ≤ off ∧ off < sp.base + sp.cap
    · obtain ⟨sp, h⟩ := hbuf
      exact .inr (.inl ⟨sp, h.1, h.2, regionOf_buffer h⟩)
    · by_cases hwin : 0x8000 ≤ off ∧ off < 0xC000
      · exact .inr (.inr (.inl ⟨hwin.1, hwin.2, regionOf_tableWindow hwin⟩))
      · exact .inr (.inr (.inr (regionOf_unmapped (by omega) (not_exists.mp hbuf) hwin)))

/-- The buffer bytes of R45, space by space. -/
theorem exists_buffer_iff (off : Nat) :
    (∃ sp : Space, sp.base ≤ off ∧ off < sp.base + sp.cap) ↔
      (0x0100 ≤ off ∧ off < 0x0124) ∨ (0x0140 ≤ off ∧ off < 0x0164) ∨
      (0x1000 ≤ off ∧ off < 0x2000) ∨ (0x4000 ≤ off ∧ off < 0x6010) := by
  constructor
  · rintro ⟨sp, hlo, hhi⟩
    cases sp <;> simp only [Space.base, Space.cap, Config.pbCap, Config.cbCap, Config.symCap] at hlo hhi <;> omega
  · rintro (h | h | h | h)
    · exact ⟨.sib, h⟩
    · exact ⟨.sob, h⟩
    · exact ⟨.pb, h⟩
    · exact ⟨.cb, h⟩

theorem wordAccess_eq_ok_iff {off n : Nat} {p q : Port} :
    wordAccess off n p = .ok q ↔ n = 4 ∧ off % 4 = 0 ∧ p = q := by
  unfold wordAccess
  split_ifs <;> simp_all

/-- An access that resolves is an operation of the hardware; in the table window it resolves to a table word (R40, R45). -/
theorem allowedAccess_of_resolve {off n : Nat} {p : Port} (h : resolve off n = .ok p) :
    allowedAccess off n ∧ (0x8000 ≤ off ∧ off < 0xC000 → ∃ r k, p = .tbl r k) := by
  obtain ⟨hlt, hreg⟩ | ⟨sp, hlo, hhi, hreg⟩ | ⟨hlo, hhi, hreg⟩ | hreg := regionOf_cases off <;>
    simp only [resolve, hreg] at h
  · obtain ⟨hn, hoff, -⟩ := wordAccess_eq_ok_iff.mp h
    exact ⟨.inl ⟨hn, hoff, .inl hlt⟩, by omega⟩
  · have hbuf := (exists_buffer_iff off).mp ⟨sp, hlo, hhi⟩
    split_ifs at h with hn
    exact ⟨.inr ⟨hn, hbuf⟩, by omega⟩
  · obtain ⟨hn, hoff, hp⟩ := wordAccess_eq_ok_iff.mp h
    exact ⟨.inl ⟨hn, hoff, .inr ⟨hlo, hhi⟩⟩, fun _ => ⟨_, _, hp.symm⟩⟩
  · cases h

/-- What the operations of the hardware resolve to: a register, a buffer byte, or a word of the table window. -/
theorem resolve_of_allowedAccess {off n : Nat} (h : allowedAccess off n) :
    (∃ r, resolve off n = .ok (.reg r)) ∨
    (∃ sp i, i < sp.cap ∧ resolve off n = .ok (.buf sp i)) ∨
    ((0x8000 ≤ off ∧ off < 0xC000) ∧ ∃ r k, (r < 8 ∧ k < 512) ∧ resolve off n = .ok (.tbl r k)) := by
  obtain ⟨rfl, haligned, hlt | hwin⟩ | ⟨rfl, hbuf⟩ := h
  · simp only [resolve, regionOf_registers hlt]
    exact .inl ⟨_, wordAccess_eq_ok_iff.mpr ⟨rfl, haligned, rfl⟩⟩
  · have hoff : off = 0x8000 + 0x800 * ((off - 0x8000) / 0x800) + 4 * ((off - 0x8000) % 0x800 / 4) := by omega
    refine .inr (.inr ⟨hwin, (off - 0x8000) / 0x800, (off - 0x8000) % 0x800 / 4, by omega, ?_⟩)
    conv_lhs => rw [hoff]
    exact resolve_tbl (by omega) (by omega)
  · obtain ⟨sp, hlo, hhi⟩ := (exists_buffer_iff off).mpr hbuf
    obtain ⟨i, rfl⟩ := Nat.exists_eq_add_of_le hlo
    exact .inr (.inl ⟨sp, i, by omega, resolve_buf (by omega)⟩)

/-- An address that resolves is an offset from `BASE` that does (R45). -/
theorem resolve_of_resolveAddress {addr n : Nat} {p : Port} (h : resolveAddress addr n = .ok p) :
    ∃ off, addr = Config.base + off ∧ resolve off n = .ok p := by
  unfold resolveAddress at h
  split_ifs at h with hbase
  exact ⟨addr - Config.base, by omega, h⟩

/-- A flat access is one through the port its address resolves to (R45). -/
theorem step_flat_of_resolveAddress {addr n : Nat} {p : Port} (h : resolveAddress addr n = .ok p) (s : State)
    (rest : List HostEvent) (v : Word) :
    step { s with bus := .memRead addr n :: rest } = readPort block p { s with bus := rest } ∧
    step { s with bus := .memWrite addr n v :: rest } = writePort p v { s with bus := rest } := by
  simp only [step, hostEvent, h, and_self]

theorem step_flat_of_unresolved {addr n : Nat} {why : Refusal} (h : resolveAddress addr n = .error why) (s : State)
    (rest : List HostEvent) (v : Word) :
    step { s with bus := .memRead addr n :: rest } = .refused why ∧
    step { s with bus := .memWrite addr n v :: rest } = .refused why := by
  simp only [step, hostEvent, h, and_self]

/-- A flat read that is no operation resolves to no port, so it is refused (R40, R46). -/
theorem memRead_refused {addr n : Nat} (h : ¬ ∃ off, addr = Config.base + off ∧ allowedAccess off n) (s : State)
    (rest : List HostEvent) : ∃ why, step { s with bus := .memRead addr n :: rest } = .refused why := by
  cases hres : resolveAddress addr n with
  | error why => exact ⟨why, (step_flat_of_unresolved hres s rest 0).1⟩
  | ok p =>
    obtain ⟨off, rfl, hoff⟩ := resolve_of_resolveAddress hres
    exact absurd ⟨off, rfl, (allowedAccess_of_resolve hoff).1⟩ h

/-- A flat write that is no operation resolves to no port, or to a word of the read-only window (R40, R46, U6). -/
theorem memWrite_refused {addr n : Nat} (h : ¬ ∃ off, addr = Config.base + off ∧ allowedWrite off n) (s : State)
    (rest : List HostEvent) (v : Word) : ∃ why, step { s with bus := .memWrite addr n v :: rest } = .refused why := by
  cases hres : resolveAddress addr n with
  | error why => exact ⟨why, (step_flat_of_unresolved hres s rest v).2⟩
  | ok p =>
    obtain ⟨off, rfl, hoff⟩ := resolve_of_resolveAddress hres
    obtain ⟨hallowed, hwindow⟩ := allowedAccess_of_resolve hoff
    have hin : 0x8000 ≤ off ∧ off < 0xC000 := by
      by_contra hout
      exact h ⟨off, rfl, hallowed, hout⟩
    obtain ⟨r, k, rfl⟩ := hwindow hin
    rw [(step_flat_of_resolveAddress hres s rest v).2]
    exact writePort_tbl r k v _

theorem memRead_answers {off n : Nat} (h : allowedAccess off n) (s : State) (rest : List HostEvent) :
    ∃ t, step { s with bus := .memRead (Config.base + off) n :: rest } = .next t := by
  have answers {p : Port} (hp : p.refusal = none) (hres : resolve off n = .ok p) :
      ∃ t, step { s with bus := .memRead (Config.base + off) n :: rest } = .next t := by
    rw [(step_flat_of_resolveAddress ((resolveAddress_base_add off n).trans hres) s rest 0).1]
    exact readPort_answers hp _
  obtain ⟨r, hres⟩ | ⟨sp, i, hi, hres⟩ | ⟨-, r, k, hrk, hres⟩ := resolve_of_allowedAccess h
  · exact answers rfl hres
  · exact answers (Port.refusal_buf hi) hres
  · exact answers (Port.refusal_tbl hrk) hres

theorem memWrite_answers {off n : Nat} (h : allowedWrite off n) (s : State) (rest : List HostEvent) (v : Word) :
    ∃ t, step { s with bus := .memWrite (Config.base + off) n v :: rest } = .next t := by
  obtain ⟨hallowed, hout⟩ := h
  obtain ⟨r, hres⟩ | ⟨sp, i, hi, hres⟩ | ⟨hin, -⟩ := resolve_of_allowedAccess hallowed
  · rw [(step_flat_of_resolveAddress ((resolveAddress_base_add off n).trans hres) s rest v).2]
    exact writeReg_answers r v _
  · rw [(step_flat_of_resolveAddress ((resolveAddress_base_add off n).trans hres) s rest v).2]
    exact ⟨_, writePort_buf hi v _⟩
  · exact absurd hin hout

/-- Settles O10: the flat accesses by what they resolve to, the ports by their capacities. -/
theorem hostAccessesOutsideTheRulesAreRefused : Obligations.HostAccessesOutsideTheRulesAreRefused := by
  refine ⟨fun s rest addr n v => ⟨fun h => memRead_refused h s rest, fun h => memWrite_refused h s rest v, ?_, ?_⟩,
    fun s rest sp i v h => ?_, fun s rest r k v => ⟨fun h => ?_, writePort_tbl r k v _⟩⟩
  · rintro ⟨off, rfl, h⟩
    exact memRead_answers h s rest
  · rintro ⟨off, rfl, h⟩
    exact memWrite_answers h s rest v
  · have hrefused := Port.refusal_buf_of_le h
    exact ⟨⟨_, readPort_of_refusal hrefused _⟩, ⟨_, writePort_of_refusal hrefused v _⟩⟩
  · exact ⟨_, readPort_of_refusal (Port.refusal_tbl_of_le h) _⟩

end Sys2Proof.Machine
end

section
/-! PROOFS. The table cache through commands and steps (O15, O24), and the symbol commands bit by bit (O31). -/

namespace Sys2Proof.Machine

/-! ## Valid bits -/

section Valid

variable {s : State} {rate r : Nat} {row : RateRow}

theorem State.fillSlot_keeps_valid (hrate : rate < 8) (hv : (s.slot r).valid = true) :
    ((s.fillSlot rate row).slot r).valid = true := by
  by_cases h : rate = r
  · rw [← h, State.slot_fillSlot row hrate]
  · rw [State.slot_fillSlot_other row h, hv]

theorem State.ensureTable_keeps_valid (hrate : rate < 8) (hv : (s.slot r).valid = true) :
    ((s.ensureTable rate row).slot r).valid = true := by
  unfold State.ensureTable
  split
  · exact hv
  · exact State.fillSlot_keeps_valid hrate hv

theorem gentbl_keeps_valid (P : Params) (hv : (s.slot r).valid = true) : ((gentbl P rate s).slot r).valid = true := by
  rcases gentbl_cases P rate s with ⟨-, h⟩ | ⟨row, hrow, h⟩ <;> rw [h]
  · rw [raiseFault_slot, hv]
  · exact State.fillSlot_keeps_valid (rateRow_lt hrow) hv

/-- `PENC` leaves the cache, or the cache with its slot ensured (R102). -/
theorem penc_keeps_valid (P : Params) (seed length : Nat) (hv : (s.slot r).valid = true) :
    ((penc P rate seed length s).slot r).valid = true := by
  rcases penc_cases P rate seed length s with ⟨-, h⟩ | ⟨row, hrow, ⟨-, h⟩ | ⟨-, -, h⟩ | ⟨hx, hl, -⟩⟩
  · rw [h, raiseFault_slot, hv]
  · rw [h, raiseFault_slot, hv]
  · rw [h, raiseFault_slot, hv]
  · rw [penc_completes hrow hx hl, State.slot_congr packetExit_cache]
    exact State.ensureTable_keeps_valid (rateRow_lt hrow) hv

/-- `PDEC` leaves the cache, or, even when its packet is uncorrectable, the cache with its slot ensured (R104, R127). -/
theorem pdec_keeps_valid (P : Params) (seed length : Nat) (hv : (s.slot r).valid = true) :
    ((pdec P rate seed length s).slot r).valid = true := by
  have hensured {row : RateRow} (hrow : rateRow P rate = some row) (hx : exactFor row length)
      (hl : s.cbLen.toNat = (packetLengths row.ndbps row.ncbps length).encMsgLen) :
      ((pdec P rate seed length s).slot r).valid = true := by
    rw [State.slot_congr (pdec_cache hrow hx hl)]
    exact State.ensureTable_keeps_valid (rateRow_lt hrow) hv
  rcases pdec_cases P rate seed length s with
    ⟨-, h⟩ | ⟨row, hrow, ⟨-, h⟩ | ⟨-, -, h⟩ | ⟨hx, hl, -⟩ | ⟨hx, hl, -⟩⟩
  · rw [h, raiseFault_slot, hv]
  · rw [h, raiseFault_slot, hv]
  · rw [h, raiseFault_slot, hv]
  · exact hensured hrow hx hl
  · exact hensured hrow hx hl

theorem exec_keeps_valid {i : Instr} {t : State} (h : exec i s = .next t) (hv : (s.slot r).valid = true) :
    (t.slot r).valid = true := by
  cases i with
  | gentbl rate => cases h; exact gentbl_keeps_valid block hv
  | penc rate seed length => cases h; exact penc_keeps_valid block seed length hv
  | pdec rate seed length => cases h; exact pdec_keeps_valid block seed length hv
  | ilv | dilv | clen | brev => rw [State.slot_congr (exec_writesOnly h).cache_eq, hv]

theorem runCommand_keeps_valid {w : Word} {t : State} (h : runCommand w s = .next t) (hv : (s.slot r).valid = true) :
    (t.slot r).valid = true := by
  unfold runCommand at h
  split at h
  · exact exec_keeps_valid h hv
  · cases h
    rw [raiseIllegal, raiseFault_slot, hv]

end Valid

/-- Settles O15: of the host's accesses only a write to `CMD` can reach the cache. -/
theorem onlyResetClearsAValidBit : Obligations.OnlyResetClearsAValidBit := by
  intro s t h hreset r hv
  rcases step_next h with ⟨-, rfl⟩ | ⟨e, rest, hbus, he⟩
  · exact hv
  · rcases hostEvent_next he with ⟨p, hr⟩ | ⟨p, v, hw⟩ | ⟨rfl, -⟩
    · rw [readPort_next hr]
      exact hv
    · rcases writePort_next hw with ⟨-, hc⟩ | ⟨sp, rfl⟩ | ⟨sp, i, -, -, rfl⟩ | rfl
      · exact runCommand_keeps_valid hc hv
      · rw [State.slot_congr (State.setLen_cache _ sp v)]
        exact hv
      · rw [State.slot_congr (State.setByte_cache _ sp i _)]
        exact hv
      · exact hv
    · exact absurd (by rw [hbus]; rfl) hreset

/-! ## `GENTBL` of a valid slot -/

/-- In a sound cache a valid slot holds the generated entries already (R24). -/
theorem CacheSound.fillSlot_eq_self {P : Params} {s : State} (hs : CacheSound P s) {rate : Nat} {row : RateRow}
    (hrow : rateRow P rate = some row) (hv : (s.slot rate).valid = true) : s.fillSlot rate row = s := by
  refine State.setSlot_eq_self ?_ (rateRow_lt hrow)
  rw [← hs.table_eq hrow hv, State.table, List.take_append_drop, ← hv]

/-- Settles O24: filling the slot again changes nothing, so only the exit writes. -/
theorem gentblOfAValidSlotChangesOnlyTheOutcome : Obligations.GentblOfAValidSlotChangesOnlyTheOutcome := by
  intro rate row s hrow hs hv
  rw [exec_gentbl, gentbl_of_rateRow hrow, hs.fillSlot_eq_self hrow hv]
  rfl

/-! ## The symbol commands bit by bit -/

theorem bitAt_zipWith_or {a b : List Byte} (h : a.length = b.length) (p : Nat) :
    bitAt (List.zipWith (· ||| ·) a b) p = (bitAt a p || bitAt b p) := by
  have hbyte : (List.zipWith (· ||| ·) a b).getD (p / 8) 0 = a.getD (p / 8) 0 ||| b.getD (p / 8) 0 := by
    simp only [List.getD_eq_getElem?_getD, List.getElem?_zipWith]
    by_cases hp : p / 8 < a.length
    · simp [hp, h ▸ hp]
    · simp [List.getElem?_eq_none (Nat.not_lt.mp hp), List.getElem?_eq_none (h ▸ Nat.not_lt.mp hp)]
  rw [bitAt_eq, bitAt_eq, bitAt_eq, hbyte, BitVec.getLsbD_or]

/-- By the generated table, into any output: each coded bit is ORed into its place (R87, R89). -/
theorem bitAt_transforms_genTable {row : RateRow} (hrow : row.wf = true) {inp out : List Byte}
    (hinp : inp.length = row.ncbps / 8) (hout : out.length = row.ncbps / 8) {k : Nat} (hk : k < row.ncbps) :
    bitAt (interleave (genTable row.ncbps row.nbpsc) inp out) (destPos row.ncbps row.nbpsc k) =
      (bitAt out (destPos row.ncbps row.nbpsc k) || bitAt inp k) ∧
    bitAt (deinterleave (genTable row.ncbps row.nbpsc) inp out) k =
      (bitAt out k || bitAt inp (destPos row.ncbps row.nbpsc k)) := by
  obtain ⟨hor, hdor⟩ := transformsOrIntoTheOldOutput (genTable row.ncbps row.nbpsc) inp out
  obtain ⟨hmove, hdmove⟩ := transformsMoveBitsAsTheTableSays row inp hrow hinp k hk
  rw [hor, hdor, bitAt_zipWith_or (by simp), bitAt_zipWith_or (by simp), hout, hmove, hdmove]
  exact ⟨rfl, rfl⟩

/-- Settles O31: both commands complete, by the generated table, and `SOB[0:nb)` is the transform's output. -/
theorem symbolCommandsMoveEachCodedBit : Obligations.SymbolCommandsMoveEachCodedBit := by
  intro rate row s hrow hs hv hi ho nb
  have hwf := RateTable.row_wf block_rates_wf hrow
  have hout {f : List Entry → List Byte → List Byte → List Byte}
      (hlen : ∀ T inp out, (f T inp out).length = out.length) :
      (symbolCommand block f rate s).bytes .sob nb =
        f (genTable row.ncbps row.nbpsc) (s.bytes .sib nb) (s.bytes .sob nb) := by
    obtain ⟨hwritten, -⟩ := symbolCommand_writes_sob block_rates_wf hlen hrow hv hi ho
    rw [← hs.table_eq hrow hv]
    exact State.bytes_eq_of_byte ((hlen _ _ _).trans (State.bytes_length s .sob nb)) hwritten
  refine ⟨_, _, exec_ilv rate s, exec_dilv rate s, fun k hk => ?_⟩
  rw [hout interleave_length, hout deinterleave_length]
  exact bitAt_transforms_genTable hwf (State.bytes_length s .sib nb) (State.bytes_length s .sob nb) hk

end Sys2Proof.Machine
end

section
/-! PROOFS. The scrambler (O38), and the packet commands: inexact lengths (O50), uncorrectable packets (O44), and the old
content of `CB` (O47). -/

namespace Sys2Proof.Machine

/-- Settles O38: byte `j` of the output depends on byte `j` of the input and on its keystream byte. -/
theorem scramblerIsLocalAndItsOwnInverse : Obligations.ScramblerIsLocalAndItsOwnInverse := by
  intro P x seed
  refine ⟨fun i hi => scramble_getD P hi seed, scramble_length P x seed, scramble_scramble P x seed, fun i j v hj => ?_⟩
  rw [scramble, scramble, List.length_set, List.getElem?_zipWith, List.getElem?_zipWith, List.getElem?_set_ne hj.symm]

/-! ## Inexact lengths -/

/-- The rows of the default table whose symbols hold whole bytes: all but that of rate id 1 (R65). -/
theorem block_ndbps {rate : Nat} {row : RateRow} (hrow : rateRow block rate = some row) :
    if rate = 1 then row.ndbps = 36 else 8 ∣ row.ndbps := by
  have hrate := rateRow_lt hrow
  have hrows : ∀ r < 8, ∀ row ∈ rateRow block r, if r = 1 then row.ndbps = 36 else 8 ∣ row.ndbps := by decide
  exact hrows rate hrate row hrow

/-- Settles O50: `ndata` is a multiple of `ndbps`, so of 8, but at rate id 1, where it is 36 times `nsym`. -/
theorem inexactLengthsFault : Obligations.InexactLengthsFault := by
  intro rate seed length row s hrow nsym
  have hwf := RateTable.row_wf block_rates_wf hrow
  have hiff : exactFor row length ↔ nsym * row.ndbps % 8 = 0 := exactFor_iff (RateRow.eight_dvd_ncbps_of_wf hwf)
  refine ⟨fun h => ?_, ?_⟩
  · have hx : ¬ exactFor row length := mt hiff.mp h
    rw [exec_clen, exec_penc, exec_pdec, clen_of_inexact hrow hx, penc_of_inexact hrow hx, pdec_of_inexact hrow hx]
    exact ⟨rfl, rfl, rfl⟩
  · have hndbps := block_ndbps hrow
    split_ifs at hndbps with hrate
    · rw [hndbps]
      omega
    · have hzero : nsym * row.ndbps % 8 = 0 := Nat.mod_eq_zero_of_dvd (hndbps.mul_left nsym)
      simp [hzero, hrate]

/-! ## Uncorrectable packets -/

/-- Settles O44: the fault is entered from the state with its table ensured. -/
theorem uncorrectablePacketsAreReportedAndNotWritten : Obligations.UncorrectablePacketsAreReportedAndNotWritten := by
  intro P rate seed length row s hrow hx l hl hbad t
  have ht : t = raiseFault .fecUncorrectable (some .pb) (s.ensureTable rate row) := pdec_uncorrectable hrow hx hl hbad
  have hcache : t.cache = (s.ensureTable rate row).cache := by rw [ht, raiseFault_cache]
  have hrate := rateRow_lt hrow
  obtain ⟨hkept, -, hother⟩ := slots_of_cache_eq_ensureTable hcache hrate
  refine ⟨?_, ?_, hkept, hother, ?_⟩
  · rw [ht, raiseFault_mem, State.ensureTable_mem]
  · rw [State.slot_congr hcache, State.valid_ensureTable s row hrate]
  · rw [ht, State.ensureTable_eq_withCache]
    rfl

/-! ## The old content of `CB` -/

theorem State.SameButBuffers.cache_and_pbLen_eq {s t : State} (h : State.SameButBuffers s t) :
    s.cache = t.cache ∧ s.pbLen = t.pbLen := by
  obtain ⟨-, -, -, -, hpbLen, -, -, -, hcache, -⟩ := State.mk.inj h
  exact ⟨hcache, hpbLen⟩

/-- The table `EnsureTable` leaves depends on the cache only. -/
theorem State.table_ensureTable_congr {s t : State} (h : s.cache = t.cache) (rate : Nat) (row : RateRow) (n : Nat) :
    (s.ensureTable rate row).table rate n = (t.ensureTable rate row).table rate n := by
  refine State.table_congr ?_ rate n
  have hslot := State.slot_congr h rate
  simp only [State.ensureTable, hslot]
  split
  · exact h
  · simp only [State.fillSlot, State.setSlot, h, hslot]

/-- Settles O47: `PENC` reads the cache, `PB_LEN` and `PB`, in which the two states agree. -/
theorem oldChannelBitsNeverEnterAPacket : Obligations.OldChannelBitsNeverEnterAPacket := by
  intro rate seed length row s s' hrow hlength hx hl hsame hpb
  have hwf := RateTable.row_wf block_rates_wf hrow
  obtain ⟨hcache, hpbLen⟩ := hsame.cache_and_pbLen_eq
  have hl' : s'.pbLen.toNat = length := hpbLen ▸ hl
  have htable := State.table_ensureTable_congr hcache rate row row.ncbps
  have hbytes : s'.bytes .pb length = s.bytes .pb length := List.map_congr_left fun i _ => hpb i
  refine ⟨_, _, exec_penc rate seed length s, exec_penc rate seed length s', fun i hi => ?_⟩
  rw [penc_completes hrow hx hl, penc_completes hrow hx hl', ← htable, hbytes]
  have hlen := encodePacket_length_of_exactFor block hwf hx ((s.ensureTable rate row).table rate row.ncbps) seed
    (s.bytes .pb length)
  have hwritten (u : State) := (packetExit_writes rate row .cb u hlen (encMsgLen_le_cbCap hwf hlength)).1 i hi
  rw [hwritten s', hwritten s]

end Sys2Proof.Machine
end

section
/-! PROOFS. Every command ends, in one of the two outcomes (O51), and none reads the outcome registers an earlier one
left (O54). -/

namespace Sys2Proof.Machine

/-- Settles O51: a command ends at `complete` or at fault entry, each of which writes all that is claimed. -/
theorem everyCommandCompletesOrFaults : Obligations.EveryCommandCompletesOrFaults := by
  intro i s
  obtain ⟨t, h⟩ := exec_answers i s
  have hfault (f : CommandFault) (c : Option Space) (u : State) :
      (raiseFault f c u).done = false ∧ (raiseFault f c u).err = true ∧ (raiseFault f c u).status = 2 ∧
        1 ≤ (raiseFault f c u).errCode.toNat ∧ (raiseFault f c u).errCode.toNat ≤ 6 ∧ (raiseFault f c u).result = 0 := by
    simpa [State.done, State.err] using f.code_bounds
  refine ⟨t, h, ?_⟩
  cases exec_endsIn h with
  | completed u => exact .inl ⟨by simp [State.done], by simp [State.err], rfl, rfl, rfl⟩
  | checkFailed hf => exact .inr (hfault _ _ _)
  | uncorrectable hrow => exact .inr (hfault _ _ _)

/-! ## The outcome registers are written, not read -/

/-- The state with these values in the outcome registers (R17 to R20). -/
def State.withOutcome (s : State) (status errCode errInfo result : Word) : State :=
  { s with status := status, errCode := errCode, errInfo := errInfo, result := result }

section WithOutcome

variable (s : State) (a b c d : Word)

/-! What the commands read of a state. -/

theorem State.slot_withOutcome (r : Nat) : (s.withOutcome a b c d).slot r = s.slot r := rfl

theorem State.len_withOutcome (sp : Space) : (s.withOutcome a b c d).len sp = s.len sp := by cases sp <;> rfl

theorem State.bytes_withOutcome (sp : Space) (n : Nat) : (s.withOutcome a b c d).bytes sp n = s.bytes sp n := rfl

theorem State.table_withOutcome (r n : Nat) : (s.withOutcome a b c d).table r n = s.table r n := rfl

/-! What the commands write, besides the outcome registers. -/

theorem State.fillSlot_withOutcome (r : Nat) (row : RateRow) :
    (s.withOutcome a b c d).fillSlot r row = (s.fillSlot r row).withOutcome a b c d := rfl

theorem State.ensureTable_withOutcome (r : Nat) (row : RateRow) :
    (s.withOutcome a b c d).ensureTable r row = (s.ensureTable r row).withOutcome a b c d :=
  (apply_ite (State.withOutcome · a b c d) ((s.slot r).valid = true) s (s.fillSlot r row)).symm

theorem State.setBytes_withOutcome (sp : Space) (bytes : List Byte) :
    (s.withOutcome a b c d).setBytes sp bytes = (s.setBytes sp bytes).withOutcome a b c d := by
  have hmem : ((s.withOutcome a b c d).setBytes sp bytes).mem = (s.setBytes sp bytes).mem :=
    State.setBytes_mem_congr (s := s.withOutcome a b c d) (t := s) rfl sp bytes
  rw [State.setBytes_eq_withMem, hmem, State.setBytes_eq_withMem s]
  rfl

theorem State.setLen_withOutcome (sp : Space) (v : Word) :
    (s.withOutcome a b c d).setLen sp v = (s.setLen sp v).withOutcome a b c d := by cases sp <;> rfl

/-! The two ends of a command overwrite the outcome registers (R127, R133). -/

theorem complete_setResult_withOutcome (n : Nat) :
    complete ((s.withOutcome a b c d).setResult n) = complete (s.setResult n) := rfl

theorem raiseFault_withOutcome (f : CommandFault) (clears : Option Space) :
    raiseFault f clears (s.withOutcome a b c d) = raiseFault f clears s := by
  cases clears with
  | none => rfl
  | some sp => cases sp <;> rfl

/-! The checks, which go on or enter the fault. -/

theorem withRate_withOutcome (P : Params) (rate : Nat) (clears : Option Space) (k : RateRow → State) :
    withRate P rate clears (s.withOutcome a b c d) k = withRate P rate clears s k := by
  simp only [withRate, raiseFault_withOutcome]

theorem requireTable_withOutcome (rate : Nat) (k : State) :
    requireTable rate (s.withOutcome a b c d) k = requireTable rate s k := by
  simp only [requireTable, State.slot_withOutcome, raiseFault_withOutcome]

theorem requireLen_withOutcome (sp : Space) (n : Nat) (clears : Option Space) (k : State) :
    requireLen sp n clears (s.withOutcome a b c d) k = requireLen sp n clears s k := by
  simp only [requireLen, State.len_withOutcome, raiseFault_withOutcome]

theorem withLengths_withOutcome (row : RateRow) (length : Nat) (clears : Option Space) (k : PacketLengths → State) :
    withLengths row length clears (s.withOutcome a b c d) k = withLengths row length clears s k := by
  simp only [withLengths, raiseFault_withOutcome]

/-! The commands. -/

theorem gentbl_withOutcome (P : Params) (rate : Nat) : gentbl P rate (s.withOutcome a b c d) = gentbl P rate s := by
  simp only [gentbl, withRate_withOutcome, State.fillSlot_withOutcome, complete_setResult_withOutcome]

theorem symbolCommand_withOutcome (P : Params) (f : List Entry → List Byte → List Byte → List Byte) (rate : Nat) :
    symbolCommand P f rate (s.withOutcome a b c d) = symbolCommand P f rate s := by
  simp only [symbolCommand, withRate_withOutcome, requireTable_withOutcome, requireLen_withOutcome,
    State.table_withOutcome, State.bytes_withOutcome, State.setBytes_withOutcome, complete_setResult_withOutcome]

theorem clen_withOutcome (P : Params) (rate length : Nat) :
    clen P rate length (s.withOutcome a b c d) = clen P rate length s := by
  simp only [clen, withRate_withOutcome, withLengths_withOutcome, complete_setResult_withOutcome]

theorem penc_withOutcome (P : Params) (rate seed length : Nat) :
    penc P rate seed length (s.withOutcome a b c d) = penc P rate seed length s := by
  simp only [penc, withRate_withOutcome, withLengths_withOutcome, requireLen_withOutcome,
    State.ensureTable_withOutcome, State.table_withOutcome, State.bytes_withOutcome, State.setBytes_withOutcome,
    State.setLen_withOutcome, complete_setResult_withOutcome]

theorem pdec_withOutcome (P : Params) (rate seed length : Nat) :
    pdec P rate seed length (s.withOutcome a b c d) = pdec P rate seed length s := by
  simp only [pdec, withRate_withOutcome, withLengths_withOutcome, requireLen_withOutcome,
    State.ensureTable_withOutcome, State.table_withOutcome, State.bytes_withOutcome, State.setBytes_withOutcome,
    State.setLen_withOutcome, complete_setResult_withOutcome, raiseFault_withOutcome]

end WithOutcome

/-- Settles O54, command by command: `withOutcome` passes through every read and write up to the exit. -/
theorem noCommandReadsTheOutcomeRegisters : Obligations.NoCommandReadsTheOutcomeRegisters := by
  intro i s a b c d
  cases i with
  | gentbl rate => exact congrArg Host.Outcome.next (gentbl_withOutcome s a b c d block rate)
  | ilv rate => exact congrArg Host.Outcome.next (symbolCommand_withOutcome s a b c d block interleave rate)
  | dilv rate => exact congrArg Host.Outcome.next (symbolCommand_withOutcome s a b c d block deinterleave rate)
  | clen rate length => exact congrArg Host.Outcome.next (clen_withOutcome s a b c d block rate length)
  | penc rate seed length => exact congrArg Host.Outcome.next (penc_withOutcome s a b c d block rate seed length)
  | pdec rate seed length => exact congrArg Host.Outcome.next (pdec_withOutcome s a b c d block rate seed length)
  | brev byte => rfl

end Sys2Proof.Machine
end
